-- ==== Sys2Proof/Word.lean ====
section
/-! DEFINITION. The widths of the spym core (spec 00_scope.md R11 to R15): the 32-bit word, the byte, and the
character sequences of which a record's strings and an input line are made. -/

namespace Sys2Proof

/-- A general register's contents, the pc: 32 bits (R11, R32). -/
abbrev Word := BitVec 32

/-- A byte, an integer in [0, 256) (R13). -/
abbrev Byte := BitVec 8

/-- A string of the spec (a mnemonic, an operand token, an input line), as the sequence of its characters.
DESIGN CHOICE (log entry 10), safe: the spec says `string` and never looks below its characters. -/
abbrev Text := List Char

end Sys2Proof
end

