-- ==== Sys2Proof/Config.lean ====
section
/-! DEFINITION. The construction parameters of the block (spec 00_scope.md section 3, R5 to R10). They are plain data
held in State and changed by no step, so that a statement over every state is a statement over every configuration
(log entry 1). The derived sizes and ValidConfig (R131) are in Machine/Params.lean. -/

namespace Sys2Proof

/-- The name of a general register (R10). A leading `$` of an operand token is not part of it (R75). -/
abbrev RegName := Text

/-- The Cache's construction-time constants CACHE_BYTES and BLOCK_BYTES (R7). -/
structure CacheGeometry where
  cacheBytes : Nat
  blockBytes : Nat
deriving DecidableEq, Repr

/-- What the block is built from (R130), but for the initial memory contents. -/
structure Config where
  /-- MEM_BYTES (R5). -/
  memBytes : Nat
  /-- CACHE_PRESENT (R6): `none` when the Cache is not built. -/
  cache : Option CacheGeometry
  /-- ADDR_BITS (R9). -/
  addrBits : Nat
  /-- REG_NAMES (R10). -/
  regNames : List RegName
deriving DecidableEq, Repr

/-- The register that selects the system call and receives the integer read (R108, R110). -/
abbrev regV0 : RegName := ['v', '0']

/-- The register whose value is printed (R109). -/
abbrev regA0 : RegName := ['a', '0']

end Sys2Proof
end

