-- ==== Sys2Proof/Syntax.lean ====
section
/-! DEFINITION. Syntax: the instruction record the engine fetches (spec 30_encoding.md R71), the eight decoded
instructions (R74, R79), and the six error kinds (60_exceptions.md R114). -/

namespace Sys2Proof

/-- An instruction record: a mnemonic and an ordered sequence of operand strings (R71). -/
structure Rec where
  mnemonic : Text
  operands : List Text
deriving DecidableEq, Repr

/-- A decoded instruction: one constructor per row of the opcode map (R74), with the fields of R79.
Immediates and offsets are integers with no width limit (R78). -/
inductive Instr where
  /-- op 0 (R99) -/
  | li (rd : RegName) (imm : Int)
  /-- op 1 (R100) -/
  | add (rd rs rt : RegName)
  /-- op 2 (R101) -/
  | addi (rd rs : RegName) (imm : Int)
  /-- op 3 (R102) -/
  | move (rd rs : RegName)
  /-- op 4 (R103) -/
  | slt (rd rs rt : RegName)
  /-- op 5 (R105): the base is named rs -/
  | lw (rd : RegName) (offset : Int) (rs : RegName)
  /-- op 6 (R106): the value is named rs, the base rt -/
  | sw (rs : RegName) (offset : Int) (rt : RegName)
  /-- op 7 (R108) -/
  | syscall
deriving DecidableEq, Repr

/-- The error kinds, exactly six (R114). -/
inductive ErrorKind where
  | unknownRegister
  | outOfBounds
  | invalidInstruction
  | unknownSyscall
  | inputFormatError
  | straddlingAccessUnsupported
deriving DecidableEq, Repr

/-- What the execution of one instruction yields (R17). -/
inductive Result where
  | continued
  | halted
  | failed (k : ErrorKind)
deriving DecidableEq, Repr

end Sys2Proof
end

