-- ==== Sys2Proof/WellFormed.lean ====
section
/-! DEFINITION. Which instructions a record can denote (spec 30_encoding.md R75, R77, R79, R82): every register field
is a name of REG_NAMES, and the base of a memory operand can be written between parentheses. -/

namespace Sys2Proof

/-- The pattern of R77 takes no parenthesis inside the parentheses, so a register whose name holds one cannot be
a base. No name of the default set does. -/
def noParen (r : RegName) : Bool := r.all fun c => c != '(' && c != ')'

/-- The registers an instruction names, in the order of its operands (R74). -/
def Instr.regs : Instr → List RegName
  | .li rd _ => [rd]
  | .add rd rs rt => [rd, rs, rt]
  | .addi rd rs _ => [rd, rs]
  | .move rd rs => [rd, rs]
  | .slt rd rs rt => [rd, rs, rt]
  | .lw rd _ rs => [rd, rs]
  | .sw rs _ rt => [rs, rt]
  | .syscall => []

/-- The register an instruction names as its destination (R29). `syscall` names none; read_int writes v0. -/
def Instr.dest? : Instr → Option RegName
  | .li rd _ | .add rd _ _ | .addi rd _ _ | .move rd _ | .slt rd _ _ | .lw rd _ _ => some rd
  | .sw _ _ _ | .syscall => none

/-- The base register of a memory operand, where the instruction has one. -/
def Instr.base? : Instr → Option RegName
  | .lw _ _ rs => some rs
  | .sw _ _ rt => some rt
  | .li _ _ | .add _ _ _ | .addi _ _ _ | .move _ _ | .slt _ _ _ | .syscall => none

/-- Well-formed over REG_NAMES. Immediates and offsets are unconstrained (R78). -/
def Instr.wellFormed (names : List RegName) (i : Instr) : Bool :=
  i.regs.all (fun r => names.contains r) && (i.base?.all noParen)

end Sys2Proof
end

