-- ==== Sys2Proof/Decode.lean ====
section
/-! DEFINITION. Instruction encoding and decode (spec 30_encoding.md): the opcode map R74, the operand tokens R75 to
R77, the decode procedure R86, the encoder, and the numbering of a record as a word that the host's interface asks
for (log entry 4; the hardware has no binary instruction word, R71). -/

namespace Sys2Proof

/-- The default register-name set: the 31 names of R24. PRESUMED (log entry 2), unsafe: the spec marks the list as
general knowledge, and REG_NAMES is a parameter of the block. -/
def defaultRegNames : List RegName :=
  [['a', 't'], ['v', '0'], ['v', '1'], ['a', '0'], ['a', '1'], ['a', '2'], ['a', '3']] ++
  [['t', '0'], ['t', '1'], ['t', '2'], ['t', '3'], ['t', '4'], ['t', '5'], ['t', '6'], ['t', '7']] ++
  [['s', '0'], ['s', '1'], ['s', '2'], ['s', '3'], ['s', '4'], ['s', '5'], ['s', '6'], ['s', '7']] ++
  [['t', '8'], ['t', '9'], ['k', '0'], ['k', '1'], ['g', 'p'], ['s', 'p'], ['f', 'p'], ['r', 'a']]

/-! ## The opcode map (R74) -/

/-- The eight rows of the opcode map. -/
inductive Op where
  | li | add | addi | move | slt | lw | sw | syscall
deriving DecidableEq, Repr

/-- The kinds of operand token: REG (R75), IMM (R76), MEM (R77). -/
inductive OperandKind where
  | reg | imm | mem
deriving DecidableEq, Repr

/-- The decoder's output code (R74). -/
def Op.code : Op → Nat
  | .li => 0 | .add => 1 | .addi => 2 | .move => 3 | .slt => 4 | .lw => 5 | .sw => 6 | .syscall => 7

/-- The mnemonic, compared exactly and case-sensitively (R72). -/
def Op.mnemonic : Op → Text
  | .li => ['l', 'i']
  | .add => ['a', 'd', 'd']
  | .addi => ['a', 'd', 'd', 'i']
  | .move => ['m', 'o', 'v', 'e']
  | .slt => ['s', 'l', 't']
  | .lw => ['l', 'w']
  | .sw => ['s', 'w']
  | .syscall => ['s', 'y', 's', 'c', 'a', 'l', 'l']

/-- The kinds of the operands in their order; the length is the arity (R73, R74). -/
def Op.shape : Op → List OperandKind
  | .li => [.reg, .imm]
  | .add => [.reg, .reg, .reg]
  | .addi => [.reg, .reg, .imm]
  | .move => [.reg, .reg]
  | .slt => [.reg, .reg, .reg]
  | .lw => [.reg, .mem]
  | .sw => [.reg, .mem]
  | .syscall => []

/-- Every row, in table order. -/
def Op.all : List Op := [.li, .add, .addi, .move, .slt, .lw, .sw, .syscall]

/-- Selection by mnemonic (R72, R80). -/
def Op.ofMnemonic (m : Text) : Option Op := Op.all.find? fun o => o.mnemonic == m

/-! ## Operand tokens -/

/-- The value of an ASCII decimal digit. -/
def digitVal (c : Char) : Option Nat :=
  if 48 ≤ c.toNat ∧ c.toNat ≤ 57 then some (c.toNat - 48) else none

/-- The decimal value of the digits that follow those already read as `acc`. -/
def parseDigits : Nat → Text → Option Nat
  | acc, [] => some acc
  | acc, c :: t =>
    match digitVal c with
    | some d => parseDigits (acc * 10 + d) t
    | none => none

/-- One or more ASCII decimal digits. -/
def parseNat : Text → Option Nat
  | [] => none
  | c :: t => parseDigits 0 (c :: t)

/-- An immediate token, `^[+-]?[0-9]+$`, and its value (R76). -/
def parseImm : Text → Option Int
  | '-' :: t => (parseNat t).map fun n : Nat => -(n : Int)
  | '+' :: t => (parseNat t).map fun n : Nat => (n : Int)
  | t => (parseNat t).map fun n : Nat => (n : Int)

/-- The register name of a token: one leading `$` is dropped (R75). -/
def regOfToken : Text → RegName
  | '$' :: t => t
  | t => t

/-- A token cut at its first opening parenthesis. -/
def cutAtOpen : Text → Option (Text × Text)
  | [] => none
  | c :: t => if c = '(' then some ([], t) else (cutAtOpen t).map fun p => (c :: p.1, p.2)

/-- What stands before a final closing parenthesis, if that is the only parenthesis left. -/
def cutAtClose : Text → Option Text
  | [] => none
  | c :: t =>
    if c = '(' then none
    else if c = ')' then (if t = [] then some [] else none)
    else (cutAtClose t).map fun r => c :: r

/-- A memory-operand token, `^([+-]?[0-9]+)\(([^()]+)\)$`: its offset and its register token (R77). -/
def parseMem (t : Text) : Option (Int × Text) :=
  match cutAtOpen t with
  | none => none
  | some (off, rest) =>
    match parseImm off, cutAtClose rest with
    | some v, some (c :: inner) => some (v, c :: inner)
    | _, _ => none

/-- An operand token that has passed the syntax checks of R86. -/
inductive Operand where
  | reg (name : RegName)
  | imm (value : Int)
  | mem (offset : Int) (base : RegName)
deriving DecidableEq, Repr

/-- The syntax check of one token by its kind; a REG token has no syntax of its own (R75, R86). -/
def parseOperand : OperandKind → Text → Option Operand
  | .reg, t => some (.reg (regOfToken t))
  | .imm, t => (parseImm t).map .imm
  | .mem, t => (parseMem t).map fun p => .mem p.1 (regOfToken p.2)

/-- The syntax checks, left to right (R86). -/
def parseOperands : List OperandKind → List Text → Option (List Operand)
  | [], _ => some []
  | _ :: _, [] => none
  | k :: ks, t :: ts =>
    match parseOperand k t with
    | none => none
    | some o => (parseOperands ks ts).map fun os => o :: os

/-- The name check of one operand (R82). -/
def Operand.known (names : List RegName) : Operand → Bool
  | .reg r => names.contains r
  | .imm _ => true
  | .mem _ r => names.contains r

/-- The decoded instruction of a row and its operands (R74, R79). -/
def Op.build : Op → List Operand → Option Instr
  | .li, [.reg rd, .imm v] => some (.li rd v)
  | .add, [.reg rd, .reg rs, .reg rt] => some (.add rd rs rt)
  | .addi, [.reg rd, .reg rs, .imm v] => some (.addi rd rs v)
  | .move, [.reg rd, .reg rs] => some (.move rd rs)
  | .slt, [.reg rd, .reg rs, .reg rt] => some (.slt rd rs rt)
  | .lw, [.reg rd, .mem off rs] => some (.lw rd off rs)
  | .sw, [.reg rs, .mem off rt] => some (.sw rs off rt)
  | .syscall, [] => some .syscall
  | _, _ => none

/-! ## The decoder -/

/-- The decode procedure (R86): total; the first check that fails decides. The last case is met by no operand list
that passed the syntax checks. -/
def decode (names : List RegName) (r : Rec) : Except ErrorKind Instr :=
  match Op.ofMnemonic r.mnemonic with
  | none => .error .invalidInstruction
  | some op =>
    if r.operands.length ≠ op.shape.length then .error .invalidInstruction
    else
      match parseOperands op.shape r.operands with
      | none => .error .invalidInstruction
      | some os =>
        if os.all (fun o => o.known names) then
          match op.build os with
          | some i => .ok i
          | none => .error .invalidInstruction
        else .error .unknownRegister

/-- The row an instruction comes from. -/
def Instr.op : Instr → Op
  | .li _ _ => .li
  | .add _ _ _ => .add
  | .addi _ _ _ => .addi
  | .move _ _ => .move
  | .slt _ _ _ => .slt
  | .lw _ _ _ => .lw
  | .sw _ _ _ => .sw
  | .syscall => .syscall

/-- The decoded form D = (op, rd, rs, rt, imm) of R79; an absent field is `none`. -/
structure Decoded where
  op : Nat
  rd : Option RegName
  rs : Option RegName
  rt : Option RegName
  imm : Option Int
deriving DecidableEq, Repr

/-- An instruction as its decoded form (R79). -/
def Instr.decoded : Instr → Decoded
  | .li rd v => ⟨0, some rd, none, none, some v⟩
  | .add rd rs rt => ⟨1, some rd, some rs, some rt, none⟩
  | .addi rd rs v => ⟨2, some rd, some rs, none, some v⟩
  | .move rd rs => ⟨3, some rd, some rs, none, none⟩
  | .slt rd rs rt => ⟨4, some rd, some rs, some rt, none⟩
  | .lw rd off rs => ⟨5, some rd, some rs, none, some off⟩
  | .sw rs off rt => ⟨6, none, some rs, some rt, some off⟩
  | .syscall => ⟨7, none, none, none, none⟩

/-! ## The encoder -/

/-- The ASCII character of a decimal digit. -/
def digitChar (d : Nat) : Char := Char.ofNat (48 + d)

/-- The decimal digits of `n` put before `acc`; the fuel bounds their number. -/
def digitsBefore : Nat → Nat → Text → Text
  | 0, _, acc => acc
  | fuel + 1, n, acc =>
    if n / 10 = 0 then digitChar (n % 10) :: acc
    else digitsBefore fuel (n / 10) (digitChar (n % 10) :: acc)

/-- A natural number in decimal, without leading zeros. -/
def decimal (n : Nat) : Text := digitsBefore (n + 1) n []

/-- An immediate token that spells `v` (R76). -/
def encodeImm : Int → Text
  | .ofNat n => decimal n
  | .negSucc n => '-' :: decimal (n + 1)

/-- A register token, in the spelling with `$` (R75). The token with `$` denotes the register for EVERY name;
the bare one does so for a name that does not itself begin with `$`. DESIGN CHOICE (log entry 12), safe. -/
def encodeReg (r : RegName) : Text := '$' :: r

/-- A memory-operand token (R77). -/
def encodeMem (off : Int) (r : RegName) : Text := encodeImm off ++ ['('] ++ encodeReg r ++ [')']

/-- The operand tokens of an instruction, in the order of R74. -/
def Instr.operandTokens : Instr → List Text
  | .li rd v => [encodeReg rd, encodeImm v]
  | .add rd rs rt => [encodeReg rd, encodeReg rs, encodeReg rt]
  | .addi rd rs v => [encodeReg rd, encodeReg rs, encodeImm v]
  | .move rd rs => [encodeReg rd, encodeReg rs]
  | .slt rd rs rt => [encodeReg rd, encodeReg rs, encodeReg rt]
  | .lw rd off rs => [encodeReg rd, encodeMem off rs]
  | .sw rs off rt => [encodeReg rs, encodeMem off rt]
  | .syscall => []

/-- The record of an instruction (R74, R84). -/
def encode (i : Instr) : Rec := { mnemonic := i.op.mnemonic, operands := i.operandTokens }

/-! ## Records as words, for the host's interface (log entry 4)

The hardware has no binary instruction word (R71) and the opcode table gives no bits. DESIGN CHOICE, safe: a word's
bytes, the first in its lowest bits, are the ASCII characters of the record's text in the syntax of R84, up to the
first zero byte; spaces and commas separate the mnemonic and the operands. -/

/-- The characters in the `n` lowest bytes of `w`, up to the first zero byte. -/
def textOfWord : Nat → Nat → Text
  | 0, _ => []
  | n + 1, w => if w % 256 = 0 then [] else Char.ofNat (w % 256) :: textOfWord n (w / 256)

/-- A text cut into the tokens between its spaces and commas; `cur` is the token being read. -/
def tokens : Text → Text → List Text
  | cur, [] => if cur = [] then [] else [cur]
  | cur, c :: t =>
    if c = ' ' ∨ c = ',' then
      (if cur = [] then tokens [] t else cur :: tokens [] t)
    else tokens (cur ++ [c]) t

/-- The record a text denotes (R84): its first token is the mnemonic. -/
def recOfText (t : Text) : Rec :=
  match tokens [] t with
  | [] => { mnemonic := [], operands := [] }
  | m :: os => { mnemonic := m, operands := os }

/-- The record an `nbits`-bit word denotes. -/
def recOfWord (nbits w : Nat) : Rec := recOfText (textOfWord ((nbits + 7) / 8) w)

/-- The instruction the decoder reads from a word, over the default REG_NAMES. -/
def decodeTableWord (nbits w : Nat) : Option Instr :=
  match decode defaultRegNames (recOfWord nbits w) with
  | .ok i => some i
  | .error _ => none

end Sys2Proof
end

