-- ==== Sys2Proof/Machine/Params.lean ====
section
/-! DEFINITION. The sizes derived from the construction parameters (spec 00_scope.md R8, R9), ValidConfig
(70_reset_and_hazards.md R131), and the configuration of `State.reset` (log entry 1). -/

namespace Sys2Proof

/-- A power of two (R7). -/
def isPow2 (n : Nat) : Bool := n == 2 ^ n.log2

/-- NUM_BLOCKS (R8). -/
def CacheGeometry.numBlocks (g : CacheGeometry) : Nat := g.cacheBytes / g.blockBytes

/-- OFF_BITS (R8). -/
def CacheGeometry.offBits (g : CacheGeometry) : Nat := g.blockBytes.log2

/-- IDX_BITS (R8). -/
def CacheGeometry.idxBits (g : CacheGeometry) : Nat := g.numBlocks.log2

/-- TAG_BITS (R9). -/
def CacheGeometry.tagBits (addrBits : Nat) (g : CacheGeometry) : Nat := addrBits - g.offBits - g.idxBits

/-- CACHE_PRESENT (R6). -/
def Config.cachePresent (c : Config) : Bool := c.cache.isSome

/-- The conditions of ValidConfig on the Cache (R131). -/
def CacheGeometry.valid (memBytes addrBits : Nat) (g : CacheGeometry) : Bool :=
  isPow2 g.blockBytes && decide (4 ≤ g.blockBytes) &&
  isPow2 g.cacheBytes && g.cacheBytes % g.blockBytes == 0 &&
  memBytes % g.blockBytes == 0 &&
  decide (g.offBits + g.idxBits ≤ addrBits)

/-- The names REG_NAMES must hold (R10, R131). -/
def requiredRegNames : List RegName := [regV0, regA0, ['t', '0'], ['t', '1'], ['s', 'p']]

/-- ValidConfig (R131). -/
def Config.valid (c : Config) : Bool :=
  decide (4 ≤ c.memBytes) && decide (c.memBytes ≤ 2 ^ 31) &&
  decide (c.memBytes ≤ 2 ^ c.addrBits) &&
  requiredRegNames.all (fun r => c.regNames.contains r) &&
  c.cache.all (fun g => g.valid c.memBytes c.addrBits)

/-- The greatest length of PROG (R32). -/
def maxProgLength : Nat := 2 ^ 32 - 1

/-- The configuration of `State.reset`: the spec's own test configuration CFG-A (95_test_vectors.md section 0).
DESIGN CHOICE (log entry 1), unsafe: every size is OPEN in the spec (D18); statements quantify over them. -/
def defaultConfig : Config :=
  { memBytes := 64
    cache := some { cacheBytes := 16, blockBytes := 8 }
    addrBits := 32
    regNames := defaultRegNames }

end Sys2Proof
end

