-- ==== Sys2Proof/Machine/State.lean ====
section
/-! DEFINITION. The state of the block (spec 10_state.md), the reasons a step has no next state, and reset
(70_reset_and_hazards.md R128). -/

namespace Sys2Proof.Machine

/-- A cache block (R39). -/
structure Block where
  valid : Bool
  dirty : Bool
  tag : Nat
  data : List Byte
deriving DecidableEq, Repr

/-- A block as reset leaves it (R40). -/
def Block.invalid (blockBytes : Nat) : Block :=
  { valid := false, dirty := false, tag := 0, data := List.replicate blockBytes 0 }

/-- STATUS.STATE, together with STATUS.ERR where STATE is FAILED and ERR is not 0 (R35). The register as a word is
`statusWord` in Machine/Flags.lean (log entry 9). -/
inductive Status where
  | ready
  | running
  | waitInput
  | exited
  | ranOffEnd
  | failed (k : ErrorKind)
deriving DecidableEq, Repr

/-- A call of the host interface (R21) that the block serves when no run is active. `dump` only reads and is a
function of the state (R97, Machine/Engine.lean). -/
inductive HostCall where
  /-- `start(PROG)` (R87) -/
  | start (prog : List Rec)
  /-- `executeSingle(rec)` (R96) -/
  | executeSingle (r : Rec)
deriving DecidableEq, Repr

/-- The state of the block, with the launch inputs it runs from. -/
structure State where
  /-- The construction parameters (R130); no step changes them. -/
  config : Config
  /-- REGS, in the order of `config.regNames` (R23). -/
  regs : List Word
  /-- The instruction index (R31, R32). -/
  pc : Word
  /-- STATUS (R35). -/
  status : Status
  /-- OUT, oldest first (R37). -/
  out : List Int
  /-- MEM (R38). -/
  mem : Memory
  /-- The Cache's blocks, by index; none where the Cache is not built (R39). -/
  blocks : List Block
  /-- PROG, the launch input of `start` (R18); the engine never writes it. -/
  prog : List Rec
  /-- The lines the host will supply to `syscall` 5, oldest first; empty where none has come (R110; log entry 5). -/
  input : List Text
  /-- The host's calls not yet served, oldest first. The model's own field (log entry 5). -/
  calls : List HostCall
  /-- What the last completed `executeSingle` handed back (R96, R17). The model's own field (log entry 8). -/
  singleResult : Option Result
deriving DecidableEq, Repr

/-- Why a step has no next state. Neither is an error of the hardware: an error is a NEXT state with
STATUS.STATE = FAILED (R92, R119). -/
inductive Fault where
  /-- Raised by `syscall` 5 when no input line has come and STATE already shows it (or no run is active): the engine is
  stuck inside the instruction, with no enabled step (R110, R93). Safe: the hardware makes no step either. -/
  | awaitingInput
  /-- Raised by `step` when no run is active and the host has made no call (R98). Safe: the block makes no step. -/
  | idle
deriving DecidableEq, Repr

/-- What the block, or the model, does not accept. -/
inductive Refusal where
  /-- Raised by an arm of `exec` whose instruction has no meaning yet; no arm does. Safe. -/
  | notModelled (mnemonic : String)
  /-- Raised by `constructChecked`: the configuration fails ValidConfig (R131). Safe: the spec refuses it. -/
  | invalidConfig
  /-- Raised by `constructChecked`: the initial contents are not bytes of [0, MEM_BYTES) in canonical form (R38). Safe. -/
  | invalidInitMem
  /-- Raised by `start` when STATE is not READY (R98). Safe: the spec refuses it. -/
  | startNotReady
  /-- Raised by `start` when PROG is longer than 2^32 - 1 (R32, D5). Safe: the spec refuses it. -/
  | programTooLong
  /-- Raised by `executeSingle` while a run is active (R96). Safe: the spec refuses it. -/
  | runActive
deriving DecidableEq, Repr

/-- What a step of this machine ends in. -/
abbrev Out := Host.Outcome State Fault Refusal

/-- The block right after construction over `c` with initial memory contents `init` (R128). -/
def State.construct (c : Config) (init : Memory) : State :=
  { config := c
    regs := List.replicate c.regNames.length 0
    pc := 0
    status := .ready
    out := []
    mem := init
    blocks :=
      match c.cache with
      | none => []
      | some g => List.replicate g.numBlocks (Block.invalid g.blockBytes)
    prog := []
    input := []
    calls := []
    singleResult := none }

/-- The machine right after reset, over the default configuration and a memory of zero bytes
(R128; log entries 1, 3, 4, 5, 8). -/
def State.reset : State := State.construct defaultConfig []

end Sys2Proof.Machine
end

