-- ==== Sys2Proof/Machine/Ops.lean ====
section
/-! DEFINITION. The named operations over registers and memory, and the end of an instruction: results, failure entry
and termination (spec 10_state.md, 20_memory.md, 40_engine.md R87 to R95, 60_exceptions.md R119). -/

namespace Sys2Proof.Machine

/-! ## Integers, words and bytes (00_scope.md R14, R15) -/

/-- `trunc32` (R14). -/
def trunc32 (v : Int) : Word := BitVec.ofInt 32 v

/-- `sint32` (R14): the two's-complement reading. -/
def sint32 (w : Word) : Int := w.toInt

/-- `le32` (R15): the bytes of a word, lowest address first. -/
def le32 (w : Word) : List Byte :=
  [w.extractLsb' 0 8, w.extractLsb' 8 8, w.extractLsb' 16 8, w.extractLsb' 24 8]

/-- The little-endian value of a byte sequence (R15). -/
def littleEndian : List Byte → Nat
  | [] => 0
  | b :: bs => b.toNat + 256 * littleEndian bs

/-- `unle32` (R15). -/
def unle32 (bs : List Byte) : Word := BitVec.ofNat 32 (littleEndian bs)

/-- The field of `width` bits of `a` from bit `lo` up (R13); 0 where the field is empty. -/
def bitField (a lo width : Nat) : Nat := a / 2 ^ lo % 2 ^ width

/-! ## The Register File (10_state.md R23 to R28) -/

/-- The value stored under a name. -/
def lookupReg : List RegName → List Word → RegName → Option Word
  | n :: ns, w :: ws, r => if n = r then some w else lookupReg ns ws r
  | _, _, _ => none

/-- The values with `v` stored under a name. -/
def updateReg : List RegName → List Word → RegName → Word → List Word
  | n :: ns, w :: ws, r, v => if n = r then v :: ws else w :: updateReg ns ws r v
  | _, ws, _, _ => ws

/-- Register read; `none` for a name outside the file (R25). -/
def State.readReg (s : State) (r : RegName) : Option Word := lookupReg s.config.regNames s.regs r

/-- `x[r]` (R16), for a name the file holds. -/
def State.getReg (s : State) (r : RegName) : Word := (s.readReg r).getD 0

/-- `x[r] <- v` (R16, R26): stores trunc32(v); no other register changes. -/
def State.setReg (s : State) (r : RegName) (v : Int) : State :=
  { s with regs := updateReg s.config.regNames s.regs r (trunc32 v) }

/-! ## The end of an instruction (40_engine.md R87 to R92, R96; 60_exceptions.md R119) -/

/-- Whether a run is active: STATE is RUNNING or WAIT_INPUT (R96). -/
def State.inRun (s : State) : Bool :=
  match s.status with
  | .running | .waitInput => true
  | .ready | .exited | .ranOffEnd | .failed _ => false

/-- What an instruction's result does. In a run: Continue advances pc (R90), Halted ends the run with pc kept (R91),
Failed enters FAILED with its error code, pc kept (R92, R119). In `executeSingle` the result goes to the caller and
neither pc nor STATUS is written (R96). -/
def retire (r : Result) (s : State) : State :=
  if s.inRun then
    match r with
    | .continued => { s with pc := s.pc + 1 }
    | .halted => { s with status := .exited }
    | .failed k => { s with status := .failed k }
  else { s with singleResult := some r }

/-- The instruction ends with Continue (R90). -/
def complete (s : State) : Out := .next (retire .continued s)

/-- The instruction ends with Halted (R91). -/
def halt (s : State) : Out := .next (retire .halted s)

/-- The instruction raises `k`: failure entry, the one place an error is taken (R92, R119). -/
def fail (k : ErrorKind) (s : State) : Out := .next (retire (.failed k) s)

/-! ## Main Memory (20_memory.md R42, R43) -/

/-- `MainRead(addr, length)` (R42). -/
def mainRead (s : State) (addr : Int) (length : Nat) : Except ErrorKind (List Byte) :=
  if addr < 0 ∨ addr + length > s.config.memBytes then .error .outOfBounds
  else .ok (s.mem.readBytes addr.toNat length)

/-- `MainWrite(addr, bytes)` (R43). -/
def mainWrite (s : State) (addr : Int) (bytes : List Byte) : Except ErrorKind State :=
  if addr < 0 ∨ addr + bytes.length > s.config.memBytes then .error .outOfBounds
  else .ok { s with mem := s.mem.writeBytes addr.toNat bytes }

/-! ## The Cache (20_memory.md R52 to R60) -/

/-- An address taken apart (R52). -/
structure Split where
  tag : Nat
  index : Nat
  offset : Nat
deriving DecidableEq, Repr

/-- `Decompose(addr)` by the three bit fields of R52. -/
def decompose (addrBits : Nat) (g : CacheGeometry) (addr : Nat) : Split :=
  { offset := bitField addr 0 g.offBits
    index := bitField addr g.offBits g.idxBits
    tag := bitField addr (g.offBits + g.idxBits) (g.tagBits addrBits) }

/-- `Base(addr)`, the block-aligned base address (R53). -/
def blockBase (g : CacheGeometry) (addr : Nat) : Nat := addr - addr % g.blockBytes

/-- The base address of the block a slot holds (R53). -/
def slotBase (g : CacheGeometry) (tag index : Nat) : Nat := tag * g.cacheBytes + index * g.blockBytes

/-- `blocks[index]`; an index the array does not have, which no address gives, shows an invalid block. -/
def State.block (s : State) (index : Nat) : Block := s.blocks.getD index (Block.invalid 0)

/-- The state with `b` at `blocks[index]`. -/
def State.setBlock (s : State) (index : Nat) (b : Block) : State := { s with blocks := s.blocks.set index b }

/-- Hit (R54). -/
def Block.hits (b : Block) (tag : Nat) : Bool := b.valid && b.tag == tag

/-- `Evict(index)` (R59). -/
def evict (g : CacheGeometry) (s : State) (index : Nat) : Except ErrorKind State :=
  mainWrite s (slotBase g (s.block index).tag index) (s.block index).data

/-- `Fill(index, tag, addr)` (R60). -/
def fill (g : CacheGeometry) (s : State) (index tag addr : Nat) : Except ErrorKind State :=
  match mainRead s (blockBase g addr) g.blockBytes with
  | .error k => .error k
  | .ok bytes => .ok (s.setBlock index { valid := true, dirty := false, tag := tag, data := bytes })

/-- The write-back a miss makes before its fill: of a valid, dirty occupant, on reads and writes alike (R56, R57, C1). -/
def writeBackVictim (g : CacheGeometry) (s : State) (index : Nat) : Except ErrorKind State :=
  if (s.block index).valid && (s.block index).dirty then evict g s index else .ok s

/-- The miss path that R56 and R57 share; a hit changes nothing. -/
def makeResident (g : CacheGeometry) (s : State) (addr : Nat) : Except ErrorKind State :=
  let d := decompose s.config.addrBits g addr
  if (s.block d.index).hits d.tag then .ok s
  else
    match writeBackVictim g s d.index with
    | .error k => .error k
    | .ok s' => fill g s' d.index d.tag addr

/-- The straddle check (R55). -/
def straddles (addrBits : Nat) (g : CacheGeometry) (addr : Nat) : Bool :=
  decide ((decompose addrBits g addr).offset + 4 > g.blockBytes)

/-- `CacheRead(addr)` (R56). -/
def cacheRead (g : CacheGeometry) (s : State) (addr : Nat) : Except ErrorKind (List Byte × State) :=
  let d := decompose s.config.addrBits g addr
  if straddles s.config.addrBits g addr then .error .straddlingAccessUnsupported
  else
    match makeResident g s addr with
    | .error k => .error k
    | .ok s' => .ok (((s'.block d.index).data.drop d.offset).take 4, s')

/-- The bytes `w` over those of `data` from `offset` on. -/
def overwrite (data : List Byte) (offset : Nat) (w : List Byte) : List Byte :=
  data.take offset ++ w ++ data.drop (offset + w.length)

/-- A block after a write of `w` at `offset`: its bytes and dirty change (R57). -/
def Block.store (b : Block) (offset : Nat) (w : List Byte) : Block :=
  { b with data := overwrite b.data offset w, dirty := true }

/-- `CacheWrite(addr, w)` (R57). -/
def cacheWrite (g : CacheGeometry) (s : State) (addr : Nat) (w : List Byte) : Except ErrorKind State :=
  let d := decompose s.config.addrBits g addr
  if straddles s.config.addrBits g addr then .error .straddlingAccessUnsupported
  else
    match makeResident g s addr with
    | .error k => .error k
    | .ok s' => .ok (s'.setBlock d.index ((s'.block d.index).store d.offset w))

/-! ## The engine's memory operations (20_memory.md R45 to R47) -/

/-- The bounds check of every engine access (R47), on the mathematical effective address. -/
def inBounds (s : State) (addr : Int) : Bool := decide (0 ≤ addr ∧ addr + 4 ≤ s.config.memBytes)

/-- `MemRead(addr, 4)` (R45): the bytes, and the state with what the Cache did. -/
def memRead (s : State) (addr : Int) : Except ErrorKind (List Byte × State) :=
  if inBounds s addr then
    match s.config.cache with
    | none =>
      match mainRead s addr 4 with
      | .error k => .error k
      | .ok bytes => .ok (bytes, s)
    | some g => cacheRead g s addr.toNat
  else .error .outOfBounds

/-- `MemWrite(addr, 4, bytes)` (R46). -/
def memWrite (s : State) (addr : Int) (bytes : List Byte) : Except ErrorKind State :=
  if inBounds s addr then
    match s.config.cache with
    | none => mainWrite s addr bytes
    | some g => cacheWrite g s addr.toNat bytes
  else .error .outOfBounds

/-- The coherent view (R66): the byte a read through the hierarchy returns at `a`. -/
def view (s : State) (a : Nat) : Byte :=
  match s.config.cache with
  | none => s.mem.read a
  | some g =>
    let d := decompose s.config.addrBits g a
    if (s.block d.index).hits d.tag then (s.block d.index).data.getD d.offset 0 else s.mem.read a

end Sys2Proof.Machine
end

