-- ==== Sys2Proof/Machine/Operands.lean ====
section
/-! DEFINITION. The operand forms at execution: registers (spec 10_state.md R25, R26), the effective address
(42_loadstore.md R107), and the input line's integer (43_syscall.md R113). -/

namespace Sys2Proof.Machine

/-- Whether the Register File holds a name (R25). -/
def State.hasReg (s : State) (r : RegName) : Bool := (s.readReg r).isSome

/-- Runs `act` when the file holds every register the instruction names, and raises UnknownRegister otherwise, before
anything is written (R25, R26, R95). A decoded instruction always passes: the decoder checked its names (R82). -/
def requireRegs (rs : List RegName) (s : State) (act : Out) : Out :=
  if rs.all s.hasReg then act else fail .unknownRegister s

/-- `x[rd] <- v`, result Continue (R26, R90). -/
def writeResult (rd : RegName) (v : Int) (s : State) : Out := complete (s.setReg rd v)

/-- `EA(base, offset)`: a mathematical integer, not reduced mod 2^32; the base is not modified (R107). -/
def effAddr (s : State) (base : RegName) (offset : Int) : Int := sint32 (s.getReg base) + offset

/-! ## The input line (R113) -/

/-- The line without one trailing terminator, a line feed or a carriage return and a line feed. -/
def stripTerminator (line : Text) : Text :=
  match line.reverse with
  | '\n' :: '\r' :: t => t.reverse
  | '\n' :: t => t.reverse
  | _ => line

/-- A space or a tab. -/
def isBlank (c : Char) : Bool := c == ' ' || c == '\t'

/-- The text without leading spaces and tabs. -/
def stripLeading : Text → Text
  | [] => []
  | c :: t => if isBlank c then stripLeading t else c :: t

/-- The text without leading and trailing spaces and tabs. -/
def stripBlanks (t : Text) : Text := (stripLeading (stripLeading t).reverse).reverse

/-- `IntValue(line)` where `INT_LINE(line)` holds, `none` otherwise (R113). -/
def intLine (line : Text) : Option Int := parseImm (stripBlanks (stripTerminator line))

end Sys2Proof.Machine
end

