-- ==== Sys2Proof/Machine/Alu.lean ====
section
/-! DEFINITION. Integer ALU and register-move instructions (spec 41_alu.md). Sources are read before the destination
is written (40_engine.md R95); no arithmetic traps (R104). -/

namespace Sys2Proof.Machine

/-- `li rd, imm` (R99). -/
def execLi (rd : RegName) (imm : Int) (s : State) : Out :=
  requireRegs [rd] s (writeResult rd imm s)

/-- `add rd, rs, rt` (R100). -/
def execAdd (rd rs rt : RegName) (s : State) : Out :=
  requireRegs [rd, rs, rt] s (writeResult rd (sint32 (s.getReg rs) + sint32 (s.getReg rt)) s)

/-- `addi rd, rs, imm` (R101). -/
def execAddi (rd rs : RegName) (imm : Int) (s : State) : Out :=
  requireRegs [rd, rs] s (writeResult rd (sint32 (s.getReg rs) + imm) s)

/-- `move rd, rs` (R102). -/
def execMove (rd rs : RegName) (s : State) : Out :=
  requireRegs [rd, rs] s (writeResult rd (sint32 (s.getReg rs)) s)

/-- `slt rd, rs, rt` (R103): signed. -/
def execSlt (rd rs rt : RegName) (s : State) : Out :=
  requireRegs [rd, rs, rt] s
    (writeResult rd (if sint32 (s.getReg rs) < sint32 (s.getReg rt) then 1 else 0) s)

end Sys2Proof.Machine
end

