-- ==== Sys2Proof/Machine/LoadStore.lean ====
section
/-! DEFINITION. Load and store (spec 42_loadstore.md). The memory checks run before anything is written (R95). -/

namespace Sys2Proof.Machine

/-- `lw rd, offset(rs)` (R105). -/
def execLw (rd : RegName) (offset : Int) (rs : RegName) (s : State) : Out :=
  requireRegs [rd, rs] s
    (match memRead s (effAddr s rs offset) with
     | .error k => fail k s
     | .ok (bytes, s') => writeResult rd (sint32 (unle32 bytes)) s')

/-- `sw rs, offset(rt)` (R106). -/
def execSw (rs : RegName) (offset : Int) (rt : RegName) (s : State) : Out :=
  requireRegs [rs, rt] s
    (match memWrite s (effAddr s rt offset) (le32 (s.getReg rs)) with
     | .error k => fail k s
     | .ok s' => complete s')

end Sys2Proof.Machine
end

