-- ==== Sys2Proof/Machine/Syscall.lean ====
section
/-! DEFINITION. The `syscall` instruction (spec 43_syscall.md), dispatched on the whole of v0. -/

namespace Sys2Proof.Machine

/-- print (R109). -/
def sysPrint (s : State) : Out :=
  requireRegs [regA0] s (complete { s with out := s.out ++ [sint32 (s.getReg regA0)] })

/-- No line has come (R110): in a run STATE becomes WAIT_INPUT, and from there the engine is stuck until the host
supplies a line; in `executeSingle` the call is blocked (R96) and STATUS is not written (log entry 6). -/
def awaitLine (s : State) : Out :=
  if s.status = .running then .next { s with status := .waitInput } else .fault .awaitingInput

/-- The line has come: in a run STATE is RUNNING again (R110). The line is consumed, whatever it holds (R95). -/
def takeLine (rest : List Text) (s : State) : State :=
  { s with input := rest, status := if s.inRun then .running else s.status }

/-- read_int (R110). -/
def sysReadInt (s : State) : Out :=
  match s.input with
  | [] => awaitLine s
  | line :: rest =>
    match intLine line with
    | none => fail .inputFormatError (takeLine rest s)
    | some v => writeResult regV0 v (takeLine rest s)

/-- exit (R111). -/
def sysExit (s : State) : Out := halt s

/-- `syscall` (R108, R112). -/
def execSyscall (s : State) : Out :=
  requireRegs [regV0] s
    (if sint32 (s.getReg regV0) = 1 then sysPrint s
     else if sint32 (s.getReg regV0) = 5 then sysReadInt s
     else if sint32 (s.getReg regV0) = 10 then sysExit s
     else fail .unknownSyscall s)

end Sys2Proof.Machine
end

