-- ==== Sys2Proof/Machine/Dispatch.lean ====
section
/-! DEFINITION. The one dispatch from an instruction to its meaning (spec 40_engine.md R89). -/

namespace Sys2Proof.Machine

def exec (i : Instr) (s : State) : Host.Outcome State Fault Refusal :=
  match i with
  | .li rd imm => Sys2Proof.Machine.execLi rd imm s
  | .add rd rs rt => Sys2Proof.Machine.execAdd rd rs rt s
  | .addi rd rs imm => Sys2Proof.Machine.execAddi rd rs imm s
  | .move rd rs => Sys2Proof.Machine.execMove rd rs s
  | .slt rd rs rt => Sys2Proof.Machine.execSlt rd rs rt s
  | .lw rd offset rs => Sys2Proof.Machine.execLw rd offset rs s
  | .sw rs offset rt => Sys2Proof.Machine.execSw rs offset rt s
  | .syscall => Sys2Proof.Machine.execSyscall s

end Sys2Proof.Machine
end

