-- ==== Sys2Proof/Machine/Flags.lean ====
section
/-! DEFINITION. There are no flags and no instruction computes one (spec 10_state.md R30). What the block has is the
status register STATUS, here as the word the host reads (R35), with the error codes (60_exceptions.md R114). -/

namespace Sys2Proof

/-- The code of an error kind (R114). -/
def ErrorKind.code : ErrorKind → Nat
  | .unknownRegister => 1
  | .outOfBounds => 2
  | .invalidInstruction => 3
  | .unknownSyscall => 4
  | .inputFormatError => 5
  | .straddlingAccessUnsupported => 6

end Sys2Proof

namespace Sys2Proof.Machine

/-- STATUS.STATE (R35). -/
def Status.stateCode : Status → Nat
  | .ready => 0
  | .running => 1
  | .waitInput => 2
  | .exited => 3
  | .ranOffEnd => 4
  | .failed _ => 5

/-- STATUS.ERR (R35): 0 when STATE is not FAILED. -/
def Status.errCode : Status → Nat
  | .failed k => k.code
  | .ready | .running | .waitInput | .exited | .ranOffEnd => 0

/-- The register STATUS: STATE in bits [2:0], ERR in bits [5:3], the rest 0 (R35). -/
def statusWord (st : Status) : Word := BitVec.ofNat 32 (st.stateCode + 8 * st.errCode)

end Sys2Proof.Machine
end

