-- ==== Sys2Proof/Machine/Engine.lean ====
section
/-! DEFINITION. The Execution Engine's run loop (spec 40_engine.md R87 to R89), the host interface (00_scope.md R21:
`start`, `executeSingle`, `dump`, the input lines) and the construction of a block (70_reset_and_hazards.md R131). -/

namespace Sys2Proof.Machine

/-- `Fetch(pc)` (R18, R88): the record at the pc, `none` when pc is not below L. -/
def fetch (s : State) : Option Rec := s.prog[s.pc.toNat]?

/-- `Execute(rec)` (R89): decode, then the instruction; a decode error ends it with Failed. -/
def execute (r : Rec) (s : State) : Out :=
  match decode s.config.regNames r with
  | .error k => fail k s
  | .ok i => exec i s

/-- One iteration of the run loop (R87, R88). An engine blocked in `syscall` 5 takes that instruction up again. -/
def runLoop (s : State) : Out :=
  match fetch s with
  | none => .next { s with status := .ranOffEnd }
  | some r => execute r s

/-- `start(PROG)` (R87, R98): accepted only in READY; pc is not written. -/
def start (prog : List Rec) (s : State) : Out :=
  if s.status = .ready then
    if prog.length ≤ maxProgLength then .next { s with prog := prog, status := .running }
    else .refused .programTooLong
  else .refused .startNotReady

/-- `executeSingle(rec)` (R96): only when no run is active; neither pc nor STATUS is read or written by it. -/
def executeSingle (r : Rec) (s : State) : Out :=
  if s.inRun then .refused .runActive else execute r s

/-- The next call of the host, when no run is active. -/
def serveCall (s : State) : Out :=
  match s.calls with
  | [] => .fault .idle
  | .start p :: rest => start p { s with calls := rest }
  | .executeSingle r :: rest => executeSingle r { s with calls := rest }

/-- The host supplies one more input line (R110). -/
def supplyLine (line : Text) (s : State) : State := { s with input := s.input ++ [line] }

/-- The host makes one more call. -/
def makeCall (c : HostCall) (s : State) : State := { s with calls := s.calls ++ [c] }

/-- The return value of `start` (R87), once the run has ended (R93). -/
inductive RunEnd where
  | exited
  | ranOffEnd
  | failed (k : ErrorKind)
deriving DecidableEq, Repr

/-- How the run ended; `none` while it has not, a run stuck in WAIT_INPUT included (R93). -/
def runEnd (s : State) : Option RunEnd :=
  match s.status with
  | .ready | .running | .waitInput => none
  | .exited => some .exited
  | .ranOffEnd => some .ranOffEnd
  | .failed k => some (.failed k)

/-- The snapshot `dump()` returns (R97): registers by name, pc, STATUS, the bytes of MEM, the cache blocks. -/
structure Snapshot where
  regs : List (RegName × Word)
  pc : Word
  status : Word
  mem : List Byte
  blocks : List Block
deriving DecidableEq, Repr

/-- `dump()` (R97). MEM is Main Memory itself, not the coherent view (R69). -/
def dump (s : State) : Snapshot :=
  { regs := s.config.regNames.zip s.regs
    pc := s.pc
    status := statusWord s.status
    mem := s.mem.readBytes 0 s.config.memBytes
    blocks := s.blocks }

/-- Construction with its validation (R130, R131): the reset of the block. -/
def constructChecked (c : Config) (init : Memory) : Out :=
  if c.valid then
    if init.wf && init.within c.memBytes then .next (State.construct c init) else .refused .invalidInitMem
  else .refused .invalidConfig

end Sys2Proof.Machine
end

