-- ==== Sys2Proof/Machine/Step.lean ====
section
/-! DEFINITION. One step of the block: an iteration of the run loop while a run is active, the next call of the host
otherwise (spec 40_engine.md R87, R96, R98). -/

namespace Sys2Proof.Machine

def step (s : State) : Host.Outcome State Fault Refusal :=
  if s.inRun then runLoop s else serveCall s

/-- The sequence with `r` in slot `i`; slots that it must gain to have one hold `r` too. -/
def putRecord (i : Nat) (r : Rec) (prog : List Rec) : List Rec :=
  if i < prog.length then prog.set i r else prog ++ List.replicate (i + 1 - prog.length) r

/-- `s` in a run whose PROG holds, at the pc, the record that the word denotes: what the host's `start` sets up
(log entry 4). -/
def State.withFetchWord (s : State) (nbits w : Nat) : State :=
  { s with prog := putRecord s.pc.toNat (recOfWord nbits w) s.prog, status := .running }

end Sys2Proof.Machine
end

