-- ==== Sys2Proof/Safety.lean ====
section
/-! DEFINITION. What the claims about this machine are stated in: the invariant every step keeps, the shapes of an
instruction's end, and the relation between a block with the Cache and the same block without it. -/

namespace Sys2Proof.Machine

/-! ## The invariant -/

/-- A cache block in its slot `i` (R39, R61, R63). `clean` is what lets a clean block be dropped at a refill. -/
structure BlockOk (c : Config) (g : CacheGeometry) (mem : Memory) (i : Nat) (b : Block) : Prop where
  dataLength : b.data.length = g.blockBytes
  tagWidth : b.tag < 2 ^ g.tagBits c.addrBits
  dirtyValid : b.dirty = true → b.valid = true
  inMemory : b.valid = true → slotBase g b.tag i + g.blockBytes ≤ c.memBytes
  clean : b.valid = true → b.dirty = false → b.data = mem.readBytes (slotBase g b.tag i) g.blockBytes

/-- The cache arrays (R39): none without the Cache, NUM_BLOCKS blocks with it. -/
def CacheOk (s : State) : Prop :=
  match s.config.cache with
  | none => s.blocks = []
  | some g => s.blocks.length = g.numBlocks ∧ ∀ i b, s.blocks[i]? = some b → BlockOk s.config g s.mem i b

/-- What holds of every state that a block built by `constructChecked` reaches. -/
structure StateInv (s : State) : Prop where
  /-- The block was built (R131). -/
  configValid : s.config.valid = true
  /-- REGS is total on REG_NAMES (R23). -/
  regsTotal : s.regs.length = s.config.regNames.length
  /-- Main Memory is in its canonical form and within its capacity (R38). -/
  memCanonical : s.mem.wf = true
  memWithin : s.mem.within s.config.memBytes = true
  cacheOk : CacheOk s
  /-- L <= 2^32 - 1 (R32). -/
  progShort : s.prog.length ≤ maxProgLength
  /-- Every element of OUT is a 32-bit signed integer (R37). -/
  outRange : ∀ v ∈ s.out, -(2 ^ 31) ≤ v ∧ v < 2 ^ 31
  /-- WAIT_INPUT is a wait inside `syscall` 5 (R110, R127). -/
  waiting : s.status = .waitInput →
    (∃ r, fetch s = some r ∧ decode s.config.regNames r = .ok .syscall) ∧ s.readReg regV0 = some 5

/-! ## How an instruction ends -/

/-- A run has ended (R93). -/
def State.ended (s : State) : Bool :=
  match s.status with
  | .exited | .ranOffEnd | .failed _ => true
  | .ready | .running | .waitInput => false

/-- The engine waits for a line that has not come (R110, R127). -/
def State.stuck (s : State) : Bool := decide (s.status = .waitInput) && s.input.isEmpty

/-- `t` is `s` after a result Continue, as far as pc, STATUS and the caller's result go: in a run pc is one more
(R90); in `executeSingle` the result is handed back (R96). -/
def Advanced (s t : State) : Prop :=
  if s.inRun then t.pc = s.pc + 1 ∧ t.status = s.status ∧ t.singleResult = s.singleResult
  else t.pc = s.pc ∧ t.status = s.status ∧ t.singleResult = some .continued

/-- The part of `Advanced` about a run: Continue advances pc by one and leaves STATUS (R90). -/
def ContinuesRun (s t : State) : Prop :=
  s.inRun = true → t.pc = s.pc + 1 ∧ t.status = s.status ∧ t.singleResult = s.singleResult

/-- No byte of memory reads otherwise (R66). -/
def SameMemory (s t : State) : Prop := ∀ a, a < s.config.memBytes → view t a = view s a

/-- What no instruction writes: the parameters, PROG, and the host's calls. -/
def SameLaunch (s t : State) : Prop := t.config = s.config ∧ t.prog = s.prog ∧ t.calls = s.calls

/-- Of registers, memory, Cache, OUT, input and launch inputs, nothing but register `rd` has changed. -/
def OnlyReg (rd : RegName) (s t : State) : Prop :=
  (∀ r, r ≠ rd → t.readReg r = s.readReg r) ∧ t.mem = s.mem ∧ t.blocks = s.blocks ∧ SameMemory s t ∧
  t.out = s.out ∧ t.input = s.input ∧ SameLaunch s t

/-- Every register reads as before. -/
def SameRegs (s t : State) : Prop := ∀ r, t.readReg r = s.readReg r

/-- The outcome is the failure entry with kind `k` and nothing else (R92, R95, R96, R119). -/
def FailsWith (k : ErrorKind) (s : State) (o : Out) : Prop :=
  o = .next (if s.inRun then { s with status := .failed k } else { s with singleResult := some (.failed k) })

/-! ## Addresses -/

/-- The word at `a` lies inside Main Memory (R47). -/
def State.wordInside (s : State) (a : Int) : Prop := 0 ≤ a ∧ a + 4 ≤ s.config.memBytes

/-- The word at `a` lies inside one cache block, where there is a Cache (R55). -/
def State.wordInBlock (s : State) (a : Int) : Prop :=
  ∀ g, s.config.cache = some g → a.toNat % g.blockBytes + 4 ≤ g.blockBytes

/-- The word the hierarchy holds at `a`, its first byte lowest (R44, R66). -/
def viewWord (s : State) (a : Nat) : Word := view s (a + 3) ++ view s (a + 2) ++ view s (a + 1) ++ view s a

/-! ## The instruction of a step, and the block without its Cache -/

/-- The record the next step executes: of the run, or of the host's `executeSingle`. -/
def stepRec (s : State) : Option Rec :=
  if s.inRun then fetch s
  else
    match s.calls with
    | .executeSingle r :: _ => some r
    | _ => none

/-- The instruction the next step executes. -/
def stepInstr (s : State) : Option Instr :=
  match stepRec s with
  | none => none
  | some r =>
    match decode s.config.regNames r with
    | .ok i => some i
    | .error _ => none

/-- Whether an instruction makes an access that is inside memory and crosses a block boundary (R55). -/
def straddlesIn (s : State) : Instr → Prop
  | .lw _ off rs => s.wordInside (effAddr s rs off) ∧ ¬ s.wordInBlock (effAddr s rs off)
  | .sw _ off rt => s.wordInside (effAddr s rt off) ∧ ¬ s.wordInBlock (effAddr s rt off)
  | .li _ _ | .add _ _ _ | .addi _ _ _ | .move _ _ | .slt _ _ _ | .syscall => False

/-- `t` is the block `s` without its Cache: the same in all a program or the host sees, its Main Memory the coherent
view of `s` (R45, R66). -/
structure Uncached (s t : State) : Prop where
  config : t.config = { s.config with cache := none }
  regs : t.regs = s.regs
  pc : t.pc = s.pc
  status : t.status = s.status
  out : t.out = s.out
  prog : t.prog = s.prog
  input : t.input = s.input
  calls : t.calls = s.calls
  singleResult : t.singleResult = s.singleResult
  mem : ∀ a, a < s.config.memBytes → t.mem.read a = view s a

end Sys2Proof.Machine
end

