-- ==== Sys2Proof/Certificates/Slice0/Obligations.lean ====
section
/-! DEFINITION. The statements for the provers. Each docstring names the rule of spec/ it formalises; where a clause
rests on a decision the spec marks as its own, or on the model's choice, the docstring says so. -/

section
open Sys2Proof Sys2Proof.Machine

/-! ## Encoding and decode -/

/-- Records written out from the spec's tables (30_encoding.md R74 to R77; 95_test_vectors.md T-DEC-1 to T-DEC-11),
one per mnemonic, and the instruction each denotes. -/
def Obligations.DecodeSpecRecords : Prop :=
  decode defaultRegNames ⟨"li".toList, ["t0".toList, "+007".toList]⟩ = .ok (.li "t0".toList 7) ∧
  decode defaultRegNames ⟨"add".toList, ["t0".toList, "t1".toList, "t2".toList]⟩ =
    .ok (.add "t0".toList "t1".toList "t2".toList) ∧
  decode defaultRegNames ⟨"addi".toList, ["t0".toList, "t1".toList, "-5".toList]⟩ =
    .ok (.addi "t0".toList "t1".toList (-5)) ∧
  decode defaultRegNames ⟨"move".toList, ["a0".toList, "v0".toList]⟩ = .ok (.move "a0".toList "v0".toList) ∧
  decode defaultRegNames ⟨"slt".toList, ["t1".toList, "t0".toList, "a0".toList]⟩ =
    .ok (.slt "t1".toList "t0".toList "a0".toList) ∧
  decode defaultRegNames ⟨"lw".toList, ["t1".toList, "0($sp)".toList]⟩ = .ok (.lw "t1".toList 0 "sp".toList) ∧
  decode defaultRegNames ⟨"sw".toList, ["t0".toList, "-4(sp)".toList]⟩ = .ok (.sw "t0".toList (-4) "sp".toList) ∧
  decode defaultRegNames ⟨"syscall".toList, []⟩ = .ok .syscall

/-- Decode and encode agree, for every instruction, over every REG_NAMES (R74 to R79, R86): no operand is dropped or
changed, whatever its value. -/
def Obligations.DecodeEncode : Prop :=
  ∀ (names : List RegName) (i : Instr), i.wellFormed names = true → decode names (encode i) = .ok i

/-- A decoded instruction is well formed, is of the row its mnemonic selects, and has that row's operand count
(R72, R73, R79, R82). -/
def Obligations.DecodeYieldsWellFormed : Prop :=
  ∀ (names : List RegName) (r : Rec) (i : Instr), decode names r = .ok i →
    i.wellFormed names = true ∧ r.mnemonic = i.op.mnemonic ∧ r.operands.length = i.op.shape.length

/-- Which error a record decodes to, in the order of R86 (the order is the spec's decision D13): InvalidInstruction
exactly when the mnemonic, the count or the syntax of an operand is wrong; UnknownRegister exactly when all those are
right and some register name is not in REG_NAMES. -/
def Obligations.DecodeErrorsExactly : Prop :=
  ∀ (names : List RegName) (r : Rec),
    (decode names r = .error .invalidInstruction ↔
      ∀ op, Op.ofMnemonic r.mnemonic = some op → r.operands.length = op.shape.length →
        parseOperands op.shape r.operands = none) ∧
    (decode names r = .error .unknownRegister ↔
      ∃ op os, Op.ofMnemonic r.mnemonic = some op ∧ r.operands.length = op.shape.length ∧
        parseOperands op.shape r.operands = some os ∧ ∃ o ∈ os, o.known names = false) ∧
    (∀ k, decode names r = .error k → k = .invalidInstruction ∨ k = .unknownRegister)

/-- R80: a mnemonic that is none of the eight. -/
def Obligations.UnknownMnemonic : Prop :=
  ∀ (names : List RegName) (r : Rec),
    r.mnemonic ∉ ["li".toList, "add".toList, "addi".toList, "move".toList, "slt".toList, "lw".toList, "sw".toList,
      "syscall".toList] →
    decode names r = .error .invalidInstruction

/-- R75: a register operand may be written with one leading `$` or without it. -/
def Obligations.DollarIsOptional : Prop :=
  ∀ (names : List RegName) (op : Op) (os : List Text) (k : Nat) (t : Text),
    op.shape[k]? = some .reg → os[k]? = some t → t.head? ≠ some '$' →
    decode names ⟨op.mnemonic, os.set k ('$' :: t)⟩ = decode names ⟨op.mnemonic, os⟩

/-- The immediate tokens and their values (R76; the syntax is the spec's decision D10): an optional sign and one or
more ASCII decimal digits, with no limit on the value (R78). -/
def Obligations.ImmediateSyntax : Prop :=
  ∀ (t : Text) (v : Int), parseImm t = some v ↔
    ∃ sign digits : Text, (sign = [] ∨ sign = ['+'] ∨ sign = ['-']) ∧ digits ≠ [] ∧
      (∀ c ∈ digits, 48 ≤ c.toNat ∧ c.toNat ≤ 57) ∧ t = sign ++ digits ∧
      v = (if sign = ['-'] then -1 else 1) * ((digits.foldl (fun n c => 10 * n + (c.toNat - 48)) 0 : Nat) : Int)

/-- The memory-operand tokens (R77; the syntax is the spec's decision D11): an immediate, then a register token without
parentheses between parentheses. -/
def Obligations.MemOperandSyntax : Prop :=
  ∀ (t r : Text) (v : Int), parseMem t = some (v, r) ↔
    ∃ off : Text, parseImm off = some v ∧ r ≠ [] ∧ '(' ∉ r ∧ ')' ∉ r ∧ t = off ++ '(' :: r ++ [')']

/-- A word whose bytes spell a record runs that record's instruction in the next step. The numbering of a record as
a word is the model's choice (log entry 4). -/
def Obligations.FetchWordRuns : Prop :=
  ∀ (s : State) (nbits w : Nat) (i : Instr), s.config.regNames = defaultRegNames →
    decodeTableWord nbits w = some i → step (s.withFetchWord nbits w) = exec i (s.withFetchWord nbits w)

/-! ## Reset and construction -/

/-- R28: every register of REG_NAMES is 0 after construction, whatever the parameters and the initial memory. -/
def Obligations.ResetRegistersZero : Prop :=
  ∀ (c : Config) (init : Memory) (r : RegName), r ∈ c.regNames → (State.construct c init).readReg r = some 0

/-- The rest of the reset table R128 (the values are the spec's decisions D6, D7, D19, D23): pc, STATUS, OUT, and every
cache block invalid and clean. -/
def Obligations.ResetRest : Prop :=
  ∀ (c : Config) (init : Memory),
    (State.construct c init).pc = 0 ∧ statusWord (State.construct c init).status = 0 ∧
    (State.construct c init).out = [] ∧ (State.construct c init).mem = init ∧
    ∀ b ∈ (State.construct c init).blocks, b.valid = false ∧ b.dirty = false ∧ b.tag = 0 ∧ ∀ x ∈ b.data, x = 0

/-- ValidConfig (R131; the conditions on MEM_BYTES, ADDR_BITS and REG_NAMES are the spec's decisions D15, D16), and that
construction accepts exactly the valid configurations. -/
def Obligations.ConstructionValidates : Prop :=
  ∀ c : Config,
    (c.valid = true ↔
      4 ≤ c.memBytes ∧ c.memBytes ≤ 2 ^ 31 ∧ c.memBytes ≤ 2 ^ c.addrBits ∧
      "v0".toList ∈ c.regNames ∧ "a0".toList ∈ c.regNames ∧ "t0".toList ∈ c.regNames ∧ "t1".toList ∈ c.regNames ∧
      "sp".toList ∈ c.regNames ∧
      ∀ g, c.cache = some g →
        (∃ k, g.blockBytes = 2 ^ k) ∧ 4 ≤ g.blockBytes ∧ (∃ k, g.cacheBytes = 2 ^ k) ∧
        g.blockBytes ∣ g.cacheBytes ∧ g.blockBytes ∣ c.memBytes ∧ g.offBits + g.idxBits ≤ c.addrBits) ∧
    (c.valid = false → ∀ init, constructChecked c init = .refused .invalidConfig) ∧
    (c.valid = true → constructChecked c [] = .next (State.construct c []))

/-- The invariant holds of the reset state.
The reset state's configuration and memory are the model's choice (log entries 1, 2, 3). -/
def Obligations.ResetInv : Prop := StateInv State.reset

/-- The invariant holds of every block that construction accepts. -/
def Obligations.ConstructInv : Prop :=
  ∀ (c : Config) (init : Memory) (s : State), constructChecked c init = .next s → StateInv s

/-! ## ALU and moves (41_alu.md) -/

/-- R99: the immediate mod 2^32, of any size. In a run pc advances; outside a run see `AluOutsideRun`. -/
def Obligations.LiResult : Prop :=
  ∀ (s : State) (rd : RegName) (imm : Int), s.regs.length = s.config.regNames.length → rd ∈ s.config.regNames →
    ∃ t, exec (.li rd imm) s = .next t ∧ t.readReg rd = some (BitVec.ofInt 32 imm) ∧ OnlyReg rd s t ∧ ContinuesRun s t

/-- R100: the sum mod 2^32 of the old values, whichever of the three registers coincide. -/
def Obligations.AddResult : Prop :=
  ∀ (s : State) (rd rs rt : RegName) (a b : Word), s.regs.length = s.config.regNames.length →
    rd ∈ s.config.regNames → s.readReg rs = some a → s.readReg rt = some b →
    ∃ t, exec (.add rd rs rt) s = .next t ∧ t.readReg rd = some (a + b) ∧ OnlyReg rd s t ∧ ContinuesRun s t

/-- R101: the sum mod 2^32, the immediate of any size. -/
def Obligations.AddiResult : Prop :=
  ∀ (s : State) (rd rs : RegName) (imm : Int) (a : Word), s.regs.length = s.config.regNames.length →
    rd ∈ s.config.regNames → s.readReg rs = some a →
    ∃ t, exec (.addi rd rs imm) s = .next t ∧ t.readReg rd = some (a + BitVec.ofInt 32 imm) ∧ OnlyReg rd s t ∧
      ContinuesRun s t

/-- R102: all 32 bits. -/
def Obligations.MoveResult : Prop :=
  ∀ (s : State) (rd rs : RegName) (a : Word), s.regs.length = s.config.regNames.length →
    rd ∈ s.config.regNames → s.readReg rs = some a →
    ∃ t, exec (.move rd rs) s = .next t ∧ t.readReg rd = some a ∧ OnlyReg rd s t ∧ ContinuesRun s t

/-- The instructions of 41_alu.md when no run is active, as `executeSingle` executes them (R96): pc and STATUS stay (the
spec's decision D26) and Continue is handed back, in the model's own field (log entry 8). -/
def Obligations.AluOutsideRun : Prop :=
  ∀ (s : State) (i : Instr), i.wellFormed s.config.regNames = true → s.regs.length = s.config.regNames.length →
    i.dest? ≠ none → i.base? = none → s.inRun = false →
    ∃ t, exec i s = .next t ∧ t.pc = s.pc ∧ t.status = s.status ∧ t.singleResult = some .continued

/-- R103: 1 when less in the signed reading (decision D4), else 0.
Outside a run pc and STATUS stay (decision D26) and Continue is handed back in the model's own field (log entry 8). -/
def Obligations.SltResult : Prop :=
  ∀ (s : State) (rd rs rt : RegName) (a b : Word), s.regs.length = s.config.regNames.length →
    rd ∈ s.config.regNames → s.readReg rs = some a → s.readReg rt = some b →
    ∃ t, exec (.slt rd rs rt) s = .next t ∧ t.readReg rd = some (if a.slt b then 1 else 0) ∧ OnlyReg rd s t ∧
      Advanced s t

/-! ## Load and store (42_loadstore.md) -/

/-- R105: the little-endian word of the coherent view at the effective address of R107; no byte of memory reads
otherwise afterwards, no other register changes.
Outside a run pc and STATUS stay (decision D26) and Continue is handed back in the model's own field (log entry 8). -/
def Obligations.LwResult : Prop :=
  ∀ (s : State) (rd rs : RegName) (off : Int), StateInv s → rd ∈ s.config.regNames → rs ∈ s.config.regNames →
    s.wordInside (effAddr s rs off) → s.wordInBlock (effAddr s rs off) →
    ∃ t, exec (.lw rd off rs) s = .next t ∧ t.readReg rd = some (viewWord s (effAddr s rs off).toNat) ∧
      (∀ r, r ≠ rd → t.readReg r = s.readReg r) ∧ SameMemory s t ∧ t.out = s.out ∧ t.input = s.input ∧
      SameLaunch s t ∧ Advanced s t

/-- R106: the four bytes at the effective address of R107 become the register's, lowest byte first; every other byte
of memory reads as before, and no register changes.
Outside a run pc and STATUS stay (decision D26) and Continue is handed back in the model's own field (log entry 8). -/
def Obligations.SwResult : Prop :=
  ∀ (s : State) (rs rt : RegName) (off : Int) (w : Word), StateInv s → s.readReg rs = some w → rt ∈ s.config.regNames →
    s.wordInside (effAddr s rt off) → s.wordInBlock (effAddr s rt off) →
    ∃ t, exec (.sw rs off rt) s = .next t ∧ viewWord t (effAddr s rt off).toNat = w ∧
      (∀ a, a < s.config.memBytes → ¬ ((effAddr s rt off).toNat ≤ a ∧ a < (effAddr s rt off).toNat + 4) →
        view t a = view s a) ∧
      SameRegs s t ∧ t.out = s.out ∧ t.input = s.input ∧ SameLaunch s t ∧ Advanced s t

/-- R47 with the effective address of R107 (the check on the mathematical address and its place before the Cache are
the spec's decisions D14, D17): a word that is not inside memory raises OutOfBounds, for `lw` and `sw`, whether or not
it straddles, and nothing else changes.
That pc is kept is decision D8; outside a run the result is handed back (D26) in the model's own field (log entry 8). -/
def Obligations.OutOfBoundsFails : Prop :=
  ∀ (s : State) (r base : RegName) (off : Int), s.regs.length = s.config.regNames.length →
    r ∈ s.config.regNames → base ∈ s.config.regNames →
    (effAddr s base off < 0 ∨ effAddr s base off + 4 > s.config.memBytes) →
    FailsWith .outOfBounds s (exec (.lw r off base) s) ∧ FailsWith .outOfBounds s (exec (.sw r off base) s)

/-- R55: a word inside memory that crosses a block boundary raises StraddlingAccessUnsupported, for `lw` and `sw`,
whether or not the block is in the Cache, and nothing else changes.
That pc is kept is decision D8; outside a run the result is handed back (D26) in the model's own field (log entry 8). -/
def Obligations.StraddlingFails : Prop :=
  ∀ (s : State) (g : CacheGeometry) (r base : RegName) (off : Int), StateInv s → s.config.cache = some g →
    r ∈ s.config.regNames → base ∈ s.config.regNames → s.wordInside (effAddr s base off) →
    (effAddr s base off).toNat % g.blockBytes + 4 > g.blockBytes →
    FailsWith .straddlingAccessUnsupported s (exec (.lw r off base) s) ∧
    FailsWith .straddlingAccessUnsupported s (exec (.sw r off base) s)

/-! ## The system call (43_syscall.md) -/

/-- R109: the signed value of a0 is appended to OUT (that the event is a signed integer is the spec's decision D23);
nothing else changes.
Outside a run pc and STATUS stay (decision D26) and Continue is handed back in the model's own field (log entry 8). -/
def Obligations.SyscallPrint : Prop :=
  ∀ (s : State) (w : Word), s.readReg regV0 = some 1 → s.readReg regA0 = some w →
    ∃ t, exec .syscall s = .next t ∧ t.out = s.out ++ [w.toInt] ∧ SameRegs s t ∧ t.mem = s.mem ∧
      t.blocks = s.blocks ∧ SameMemory s t ∧ t.input = s.input ∧ SameLaunch s t ∧ Advanced s t

/-- R110 with a line that is an integer (the oracle and the grammar are the spec's decisions D32, D24): its value mod
2^32 goes to v0, the line is consumed, and in a run STATE is RUNNING again.
Outside a run pc and STATUS stay (decision D26) and Continue is handed back in the model's own field (log entry 8). -/
def Obligations.SyscallReadInt : Prop :=
  ∀ (s : State) (line : Text) (rest : List Text) (v : Int), s.readReg regV0 = some 5 → s.input = line :: rest →
    intLine line = some v →
    ∃ t, exec .syscall s = .next t ∧ t.readReg regV0 = some (BitVec.ofInt 32 v) ∧
      (∀ r, r ≠ regV0 → t.readReg r = s.readReg r) ∧ t.mem = s.mem ∧ t.blocks = s.blocks ∧ SameMemory s t ∧
      t.out = s.out ∧ t.input = rest ∧ SameLaunch s t ∧
      (s.inRun = true → t.pc = s.pc + 1 ∧ t.status = .running ∧ t.singleResult = s.singleResult) ∧
      (s.inRun = false → t.pc = s.pc ∧ t.status = s.status ∧ t.singleResult = some .continued)

/-- R110 with a line that is not an integer: InputFormatError; nothing but the consumed line changes (R95).
That pc is kept is decision D8; outside a run the result is handed back (D26) in the model's own field (log entry 8). -/
def Obligations.SyscallBadLine : Prop :=
  ∀ (s : State) (line : Text) (rest : List Text), s.readReg regV0 = some 5 → s.input = line :: rest →
    intLine line = none →
    FailsWith .inputFormatError { s with input := rest } (exec .syscall s)

/-- R110 before a line has come: a run shows WAIT_INPUT, and is then stuck; `executeSingle` is blocked, with STATUS not
written. That the stuck engine is a fault of the model, and that a line already there is read in the same step, is the
model's choice (log entries 6 and 11). -/
def Obligations.SyscallWaits : Prop :=
  ∀ s : State, s.readReg regV0 = some 5 → s.input = [] →
    (s.status = .running → exec .syscall s = .next { s with status := .waitInput }) ∧
    (s.status ≠ .running → exec .syscall s = .fault .awaitingInput)

/-- R111: Halted; in a run STATE becomes EXITED and pc stays (R91); in `executeSingle` Halted is handed back, pc and
STATUS not written (decision D26; the field is the model's, log entry 8). Nothing else changes. -/
def Obligations.SyscallExit : Prop :=
  ∀ s : State, s.readReg regV0 = some 10 →
    exec .syscall s =
      .next (if s.inRun then { s with status := .exited } else { s with singleResult := some .halted })

/-- R112: any other v0, compared as a whole, raises UnknownSyscall and nothing is written. The code 4 (decision D7), pc
kept (D8) and the result handed back in `executeSingle` (D26, log entry 8) are not the source's. -/
def Obligations.SyscallUnknown : Prop :=
  ∀ (s : State) (w : Word), s.readReg regV0 = some w → w ≠ 1 → w ≠ 5 → w ≠ 10 →
    FailsWith .unknownSyscall s (exec .syscall s) ∧
    (Status.failed .unknownSyscall).stateCode = 5 ∧ (Status.failed .unknownSyscall).errCode = 4

/-- The input lines that are integers and their values (R113; the grammar is the spec's decision D24): an immediate
token between spaces and tabs, before at most one line terminator. -/
def Obligations.IntLineGrammar : Prop :=
  ∀ (line : Text) (v : Int), intLine line = some v ↔
    ∃ pre t post term : Text, line = pre ++ t ++ post ++ term ∧
      (∀ c ∈ pre, c = ' ' ∨ c = '\t') ∧ (∀ c ∈ post, c = ' ' ∨ c = '\t') ∧
      (term = [] ∨ term = ['\n'] ∨ term = ['\r', '\n']) ∧ parseImm t = some v

/-! ## The engine (40_engine.md) -/

/-- A step of a run executes the record at pc (R89): the decoded instruction, or, where decoding fails, a Failed result
with the decode error. That nothing else changes then is `FailureIsAtomic`. -/
def Obligations.StepRunsDecoded : Prop :=
  ∀ (s : State) (r : Rec), s.inRun = true → s.prog[s.pc.toNat]? = some r →
    (∀ i, decode s.config.regNames r = .ok i → step s = exec i s) ∧
    (∀ k, decode s.config.regNames r = .error k → ∃ t, step s = .next t ∧ t.status = .failed k)

/-- R88: with pc not below L the run ends in RAN_OFF_END, and nothing else changes (decision D27). -/
def Obligations.StepRunsOffEnd : Prop :=
  ∀ s : State, s.inRun = true → s.prog.length ≤ s.pc.toNat → step s = .next { s with status := .ranOffEnd }

/-- With no run active a step serves the host's next call (R87, R96, R98; that calls stand in a list is the model's
choice, log entry 5): `start` runs PROG from the pc that stands, in READY only (decision D33), and for PROG of at most
2^32 - 1 records (decision D5); `executeSingle` executes its record.
`start` leaves pc (decision D6); a result handed back stands in the model's own field (log entry 8), and a call refused
stays in the list (log entry 16). -/
def Obligations.StepServesCalls : Prop :=
  ∀ (s : State) (rest : List HostCall), s.inRun = false →
    (∀ p, s.calls = .start p :: rest → s.status = .ready → p.length ≤ 2 ^ 32 - 1 →
      step s = .next { s with calls := rest, prog := p, status := .running }) ∧
    (∀ p, s.calls = .start p :: rest → s.status = .ready → p.length > 2 ^ 32 - 1 →
      step s = .refused .programTooLong) ∧
    (∀ p, s.calls = .start p :: rest → s.status ≠ .ready → step s = .refused .startNotReady) ∧
    (∀ r i, s.calls = .executeSingle r :: rest → decode s.config.regNames r = .ok i →
      step s = exec i { s with calls := rest }) ∧
    (∀ r k, s.calls = .executeSingle r :: rest → decode s.config.regNames r = .error k →
      FailsWith k { s with calls := rest } (step s)) ∧
    (s.calls = [] → step s = .fault .idle)

/-- R96: `executeSingle` is refused while a run is active; otherwise it writes neither pc nor STATUS (decision D26) and
hands a result back.
The result stands in the model's own field (log entry 8). -/
def Obligations.SingleKeepsPcAndStatus : Prop :=
  ∀ (s : State) (r : Rec),
    (s.inRun = true → executeSingle r s = .refused .runActive) ∧
    (s.inRun = false → ∀ t, StateInv s → executeSingle r s = .next t →
      t.pc = s.pc ∧ t.status = s.status ∧ ∃ x, t.singleResult = some x)

/-- R96, "identical per-instruction semantics and the same failure/termination signaling": the same instruction run in a
run and by `executeSingle` leaves the same registers, memory, output and input, and the result handed back is the one
the run shows in pc and STATUS.
The result stands in the model's own field (log entry 8); that pc stays is decision D26. -/
def Obligations.SingleSameSemantics : Prop :=
  ∀ (s t : State) (i : Instr), StateInv s → s.status = .running → exec i s = .next t → t.status ≠ .waitInput →
    ∃ u x, exec i { s with status := .ready } = .next u ∧ u.singleResult = some x ∧
      u.regs = t.regs ∧ u.mem = t.mem ∧ u.blocks = t.blocks ∧ u.out = t.out ∧ u.input = t.input ∧ u.pc = s.pc ∧
      (x = .continued ↔ t.status = .running) ∧ (x = .continued → t.pc = s.pc + 1) ∧
      (x = .halted ↔ t.status = .exited) ∧ (∀ k, x = .failed k ↔ t.status = .failed k)

/-- R18: Fetch(pc) is the record there, or none, and the engine never writes PROG, in a run or in `executeSingle`. -/
def Obligations.FetchReadsProg : Prop :=
  (∀ s : State, (∀ h : s.pc.toNat < s.prog.length, fetch s = some s.prog[s.pc.toNat]) ∧
    (s.prog.length ≤ s.pc.toNat → fetch s = none)) ∧
  (∀ s t : State, StateInv s → s.inRun = true → step s = .next t → t.prog = s.prog) ∧
  ∀ (s t : State) (r : Rec), StateInv s → executeSingle r s = .next t → t.prog = s.prog

/-! ## Whole-machine rules -/

/-- Every step keeps the invariant: ValidConfig, the register file's size, the canonical memory within its capacity, the
cache arrays in order (R39, R61, R63), PROG's length, OUT's range, and WAIT_INPUT only inside `syscall` 5. -/
def Obligations.StepKeepsInv : Prop := ∀ s t : State, StateInv s → step s = .next t → StateInv t

/-- So every state reached from an accepted construction, whatever the host calls and supplies, meets it. -/
def Obligations.ReachableInv : Prop :=
  ∀ (c : Config) (init : Memory) (s t : State) (calls : List HostCall) (input : List Text) (k : Nat),
    constructChecked c init = .next s →
    Host.Core.run Sys2Proof.core k { s with calls := calls, input := input } = .next t → StateInv t

/-- R94: pc changes only by +1, in a run, and then with no wrap-around (R34). -/
def Obligations.PcMovesByOne : Prop :=
  ∀ s t : State, StateInv s → step s = .next t →
    t.pc = s.pc ∨
    (s.inRun = true ∧ s.pc.toNat < s.prog.length ∧ t.pc.toNat = s.pc.toNat + 1 ∧ t.status = .running)

/-- A run that has ended stays ended (R93, R98, R120): no step changes STATUS, pc or PROG, and `start` is refused.
That `executeSingle` writes neither is decision D26, the refusal D33. -/
def Obligations.EndedStaysEnded : Prop :=
  ∀ s : State, StateInv s → s.ended = true →
    (∀ t, step s = .next t → t.status = s.status ∧ t.pc = s.pc ∧ t.prog = s.prog) ∧
    (∀ p rest, s.calls = .start p :: rest → step s = .refused .startNotReady)

/-- R95, R92 (decisions D8, D9): a step of a run that ends in FAILED changes nothing but STATUS, save that the input
line of an InputFormatError is consumed. -/
def Obligations.FailureIsAtomic : Prop :=
  ∀ (s t : State) (k : ErrorKind), StateInv s → s.inRun = true → step s = .next t → t.status = .failed k →
    t = { s with status := .failed k, input := t.input } ∧
    (t.input = s.input ∨ (k = .inputFormatError ∧ ∃ line, s.input = line :: t.input))

/-- R115: after decode only `lw` and `sw` raise OutOfBounds and StraddlingAccessUnsupported, only `syscall` raises
UnknownSyscall and InputFormatError, and the five others raise nothing. -/
def Obligations.ErrorsByInstruction : Prop :=
  ∀ (s t : State) (i : Instr) (k : ErrorKind), StateInv s → i.wellFormed s.config.regNames = true → s.inRun = true →
    exec i s = .next t → t.status = .failed k →
    match i with
    | .lw _ _ _ | .sw _ _ _ => k = .outOfBounds ∨ k = .straddlingAccessUnsupported
    | .syscall => k = .unknownSyscall ∨ k = .inputFormatError
    | .li _ _ | .add _ _ _ | .addi _ _ _ | .move _ _ | .slt _ _ _ => False

/-- R37: only `syscall` with v0 = 1 writes OUT, by appending one integer of 32-bit signed range. -/
def Obligations.OnlyPrintWritesOut : Prop :=
  ∀ (s t : State) (i : Instr), StateInv s → exec i s = .next t →
    t.out = s.out ∨
    (i = .syscall ∧ s.readReg regV0 = some 1 ∧ ∃ v : Int, -(2 ^ 31) ≤ v ∧ v < 2 ^ 31 ∧ t.out = s.out ++ [v])

/-- R41, R50: only `sw` changes what memory reads as. -/
def Obligations.OnlyStoreWritesMemory : Prop :=
  ∀ (s t : State) (i : Instr), StateInv s → exec i s = .next t → (∀ rs off rt, i ≠ .sw rs off rt) → SameMemory s t

/-- R29, R26: no instruction changes a register other than its destination. -/
def Obligations.OnlyDestinationChanges : Prop :=
  ∀ (s t : State) (i : Instr) (r : RegName), StateInv s → exec i s = .next t → t.readReg r ≠ s.readReg r →
    match i with
    | .li rd _ | .add rd _ _ | .addi rd _ _ | .move rd _ | .slt rd _ _ | .lw rd _ _ => r = rd
    | .sw _ _ _ => False
    | .syscall => r = regV0 ∧ s.readReg regV0 = some 5

/-- R94: a run ends, within one step more than the records from pc on, or waits for a line that has not come. -/
def Obligations.RunEnds : Prop :=
  ∀ s : State, StateInv s → s.inRun = true →
    ∃ k t, k ≤ s.prog.length - s.pc.toNat + 1 ∧ Host.Core.run Sys2Proof.core k s = .next t ∧
      (t.ended = true ∨ t.stuck = true)

/-! ## The memory hierarchy (20_memory.md) -/

/-- Two canonical memories that read alike at every address are the same memory. -/
def Obligations.MemoryIsCanonical : Prop :=
  ∀ m m' : Memory, m.wf = true → m'.wf = true → (∀ a, m.read a = m'.read a) → m = m'

/-- R52: the three bit fields of an address are its remainder and quotients by the geometry's sizes. -/
def Obligations.DecomposeByDivision : Prop :=
  ∀ (c : Config) (g : CacheGeometry) (a : Nat), c.valid = true → c.cache = some g → a < 2 ^ c.addrBits →
    decompose c.addrBits g a =
      { offset := a % g.blockBytes, index := a / g.blockBytes % g.numBlocks, tag := a / g.cacheBytes }

/-- R52, R53: distinct addresses decompose differently, and a slot's base and the offset give the address back. -/
def Obligations.DecomposeIsInjective : Prop :=
  ∀ (c : Config) (g : CacheGeometry) (a b : Nat), c.valid = true → c.cache = some g → a < 2 ^ c.addrBits →
    b < 2 ^ c.addrBits → decompose c.addrBits g a = decompose c.addrBits g b → a = b

/-- R56: a read hit returns the block's bytes and changes nothing; a read miss writes a valid, dirty occupant back to its
own base, fills the block clean from the block-aligned base, and returns the filled block's bytes; a straddling read raises
before either (R55). -/
def Obligations.CacheReadHitAndMiss : Prop :=
  ∀ (s : State) (g : CacheGeometry) (a : Nat), StateInv s → s.config.cache = some g → s.wordInside a →
    (¬ s.wordInBlock a → memRead s a = .error .straddlingAccessUnsupported) ∧
    (s.wordInBlock a → ∃ d, d = decompose s.config.addrBits g a ∧
    (((s.block d.index).valid = true ∧ (s.block d.index).tag = d.tag) →
      memRead s a = .ok (((s.block d.index).data.drop d.offset).take 4, s)) ∧
    (¬ ((s.block d.index).valid = true ∧ (s.block d.index).tag = d.tag) →
      ∃ t, memRead s a = .ok (((t.block d.index).data.drop d.offset).take 4, t) ∧
        t.mem = (if (s.block d.index).valid ∧ (s.block d.index).dirty
          then s.mem.writeBytes ((s.block d.index).tag * g.cacheBytes + d.index * g.blockBytes) (s.block d.index).data
          else s.mem) ∧
        t.block d.index = { valid := true, dirty := false, tag := d.tag
                            data := t.mem.readBytes (a - a % g.blockBytes) g.blockBytes } ∧
        (∀ j, j ≠ d.index → t.block j = s.block j) ∧ t = { s with mem := t.mem, blocks := t.blocks }))

/-- R57: a write hit changes the block's bytes, sets dirty and leaves Main Memory alone; a write miss writes a valid,
dirty occupant back, allocates the block from Main Memory, then writes and sets dirty; a straddling write raises before either
(R55). -/
def Obligations.CacheWriteHitAndMiss : Prop :=
  ∀ (s : State) (g : CacheGeometry) (a : Nat) (w : List Byte), StateInv s → s.config.cache = some g → w.length = 4 →
    s.wordInside a →
    (¬ s.wordInBlock a → memWrite s a w = .error .straddlingAccessUnsupported) ∧
    (s.wordInBlock a → ∃ d, d = decompose s.config.addrBits g a ∧
    ∃ t, memWrite s a w = .ok t ∧ (∀ j, j ≠ d.index → t.block j = s.block j) ∧
      t = { s with mem := t.mem, blocks := t.blocks } ∧
      (((s.block d.index).valid = true ∧ (s.block d.index).tag = d.tag) →
        t.mem = s.mem ∧
        t.block d.index = { valid := true, dirty := true, tag := d.tag
                            data := (s.block d.index).data.take d.offset ++ w ++
                              (s.block d.index).data.drop (d.offset + 4) }) ∧
      (¬ ((s.block d.index).valid = true ∧ (s.block d.index).tag = d.tag) →
        t.mem = (if (s.block d.index).valid ∧ (s.block d.index).dirty
          then s.mem.writeBytes ((s.block d.index).tag * g.cacheBytes + d.index * g.blockBytes) (s.block d.index).data
          else s.mem) ∧
        t.block d.index =
          { valid := true, dirty := true, tag := d.tag
            data := (t.mem.readBytes (a - a % g.blockBytes) g.blockBytes).take d.offset ++ w ++
              (t.mem.readBytes (a - a % g.blockBytes) g.blockBytes).drop (d.offset + 4) }))

/-- R67: a word written reads back, with the Cache or without it. -/
def Obligations.ReadAfterWrite : Prop :=
  ∀ (s t : State) (a : Int) (w : Word), StateInv s → memWrite s a (le32 w) = .ok t →
    ∃ u, memRead t a = .ok (le32 w, u)

/-- R50, R54: reading again returns the same bytes, and the second read changes nothing at all. -/
def Obligations.ReadIsIdempotent : Prop :=
  ∀ (s t : State) (a : Int) (bytes : List Byte), StateInv s → memRead s a = .ok (bytes, t) →
    memRead t a = .ok (bytes, t)

/-- R45, R66: the Cache is transparent. A step of a block with the Cache that makes no straddling access is matched by
the same block without it: the same next state up to the Cache, the same fault, the same refusal. -/
def Obligations.CacheIsTransparent : Prop :=
  ∀ s u : State, StateInv s → StateInv u → Uncached s u → (∀ i, stepInstr s = some i → ¬ straddlesIn s i) →
    (∀ t, step s = .next t → ∃ v, step u = .next v ∧ Uncached t v) ∧
    (∀ f, step s = .fault f → step u = .fault f) ∧
    (∀ x, step s = .refused x → step u = .refused x)

/-! ## STATUS and the snapshot -/

/-- The fields of STATUS (R35) and the error codes (R114; the layout and the numbers are the spec's decision D7): STATE
in bits [2:0], ERR in bits [5:3], 0 unless STATE is FAILED, and 1 to 6 then; bits [31:6] are 0. -/
def Obligations.StatusFields : Prop :=
  (∀ st : Status, (statusWord st).toNat % 8 = st.stateCode ∧ (statusWord st).toNat / 8 = st.errCode ∧
    (st.errCode ≠ 0 ↔ st.stateCode = 5)) ∧
  (Status.ready.stateCode = 0 ∧ Status.running.stateCode = 1 ∧ Status.waitInput.stateCode = 2 ∧
    Status.exited.stateCode = 3 ∧ Status.ranOffEnd.stateCode = 4) ∧
  ErrorKind.unknownRegister.code = 1 ∧ ErrorKind.outOfBounds.code = 2 ∧ ErrorKind.invalidInstruction.code = 3 ∧
  ErrorKind.unknownSyscall.code = 4 ∧ ErrorKind.inputFormatError.code = 5 ∧
  ErrorKind.straddlingAccessUnsupported.code = 6

/-- R97: what `dump()` shows. -/
def Obligations.DumpShowsState : Prop :=
  ∀ s : State, s.regs.length = s.config.regNames.length →
    (∀ r, (dump s).regs.lookup r = s.readReg r) ∧ (dump s).pc = s.pc ∧ (dump s).status = statusWord s.status ∧
    (dump s).mem.length = s.config.memBytes ∧
    (∀ a, a < s.config.memBytes → (dump s).mem[a]? = some (s.mem.read a)) ∧ (dump s).blocks = s.blocks

end
end

