-- ==== Sys2Proof/Laws/State.lean ====
section
/-! SUPPORT. One lemma per field per update of the state (true by the definitions), so that no later proof unfolds a
record update. -/

namespace Sys2Proof.Machine

@[simp] theorem State.setReg_config (s : State) (r : RegName) (v : Int) : (s.setReg r v).config = s.config := rfl
@[simp] theorem State.setReg_pc (s : State) (r : RegName) (v : Int) : (s.setReg r v).pc = s.pc := rfl
@[simp] theorem State.setReg_status (s : State) (r : RegName) (v : Int) : (s.setReg r v).status = s.status := rfl
@[simp] theorem State.setReg_out (s : State) (r : RegName) (v : Int) : (s.setReg r v).out = s.out := rfl
@[simp] theorem State.setReg_mem (s : State) (r : RegName) (v : Int) : (s.setReg r v).mem = s.mem := rfl
@[simp] theorem State.setReg_blocks (s : State) (r : RegName) (v : Int) : (s.setReg r v).blocks = s.blocks := rfl
@[simp] theorem State.setReg_prog (s : State) (r : RegName) (v : Int) : (s.setReg r v).prog = s.prog := rfl
@[simp] theorem State.setReg_input (s : State) (r : RegName) (v : Int) : (s.setReg r v).input = s.input := rfl
@[simp] theorem State.setReg_calls (s : State) (r : RegName) (v : Int) : (s.setReg r v).calls = s.calls := rfl
@[simp] theorem State.setReg_singleResult (s : State) (r : RegName) (v : Int) : (s.setReg r v).singleResult = s.singleResult := rfl

@[simp] theorem State.setBlock_config (s : State) (i : Nat) (b : Block) : (s.setBlock i b).config = s.config := rfl
@[simp] theorem State.setBlock_regs (s : State) (i : Nat) (b : Block) : (s.setBlock i b).regs = s.regs := rfl
@[simp] theorem State.setBlock_pc (s : State) (i : Nat) (b : Block) : (s.setBlock i b).pc = s.pc := rfl
@[simp] theorem State.setBlock_status (s : State) (i : Nat) (b : Block) : (s.setBlock i b).status = s.status := rfl
@[simp] theorem State.setBlock_out (s : State) (i : Nat) (b : Block) : (s.setBlock i b).out = s.out := rfl
@[simp] theorem State.setBlock_mem (s : State) (i : Nat) (b : Block) : (s.setBlock i b).mem = s.mem := rfl
@[simp] theorem State.setBlock_prog (s : State) (i : Nat) (b : Block) : (s.setBlock i b).prog = s.prog := rfl
@[simp] theorem State.setBlock_input (s : State) (i : Nat) (b : Block) : (s.setBlock i b).input = s.input := rfl
@[simp] theorem State.setBlock_calls (s : State) (i : Nat) (b : Block) : (s.setBlock i b).calls = s.calls := rfl
@[simp] theorem State.setBlock_singleResult (s : State) (i : Nat) (b : Block) : (s.setBlock i b).singleResult = s.singleResult := rfl

@[simp] theorem State.setBlock_blocks (s : State) (i : Nat) (b : Block) : (s.setBlock i b).blocks = s.blocks.set i b := rfl

@[simp] theorem retire_config (r : Result) (s : State) : (retire r s).config = s.config := by
  unfold retire; repeat' split
  all_goals rfl

@[simp] theorem retire_regs (r : Result) (s : State) : (retire r s).regs = s.regs := by
  unfold retire; repeat' split
  all_goals rfl

@[simp] theorem retire_out (r : Result) (s : State) : (retire r s).out = s.out := by
  unfold retire; repeat' split
  all_goals rfl

@[simp] theorem retire_mem (r : Result) (s : State) : (retire r s).mem = s.mem := by
  unfold retire; repeat' split
  all_goals rfl

@[simp] theorem retire_blocks (r : Result) (s : State) : (retire r s).blocks = s.blocks := by
  unfold retire; repeat' split
  all_goals rfl

@[simp] theorem retire_prog (r : Result) (s : State) : (retire r s).prog = s.prog := by
  unfold retire; repeat' split
  all_goals rfl

@[simp] theorem retire_input (r : Result) (s : State) : (retire r s).input = s.input := by
  unfold retire; repeat' split
  all_goals rfl

@[simp] theorem retire_calls (r : Result) (s : State) : (retire r s).calls = s.calls := by
  unfold retire; repeat' split
  all_goals rfl

@[simp] theorem takeLine_config (l : List Text) (s : State) : (takeLine l s).config = s.config := rfl
@[simp] theorem takeLine_regs (l : List Text) (s : State) : (takeLine l s).regs = s.regs := rfl
@[simp] theorem takeLine_pc (l : List Text) (s : State) : (takeLine l s).pc = s.pc := rfl
@[simp] theorem takeLine_out (l : List Text) (s : State) : (takeLine l s).out = s.out := rfl
@[simp] theorem takeLine_mem (l : List Text) (s : State) : (takeLine l s).mem = s.mem := rfl
@[simp] theorem takeLine_blocks (l : List Text) (s : State) : (takeLine l s).blocks = s.blocks := rfl
@[simp] theorem takeLine_prog (l : List Text) (s : State) : (takeLine l s).prog = s.prog := rfl
@[simp] theorem takeLine_calls (l : List Text) (s : State) : (takeLine l s).calls = s.calls := rfl
@[simp] theorem takeLine_singleResult (l : List Text) (s : State) : (takeLine l s).singleResult = s.singleResult := rfl

@[simp] theorem takeLine_input (l : List Text) (s : State) : (takeLine l s).input = l := rfl

@[simp] theorem takeLine_inRun (l : List Text) (s : State) : (takeLine l s).inRun = s.inRun := by
  rcases h : s.status <;> simp [takeLine, State.inRun, h]

@[simp] theorem State.setReg_inRun (s : State) (r : RegName) (v : Int) : (s.setReg r v).inRun = s.inRun := rfl

@[simp] theorem State.setBlock_inRun (s : State) (i : Nat) (b : Block) : (s.setBlock i b).inRun = s.inRun := rfl

/-- `inRun` depends on STATUS alone. -/
theorem inRun_congr {s t : State} (h : t.status = s.status) : t.inRun = s.inRun := by
  simp [State.inRun, h]

theorem inRun_iff (s : State) : s.inRun = true ↔ s.status = .running ∨ s.status = .waitInput := by
  rcases h : s.status <;> simp [State.inRun, h]

/-- The end of an instruction in a run with Continue (R90). -/
theorem retire_continued_inRun {s : State} (h : s.inRun = true) :
    retire .continued s = { s with pc := s.pc + 1 } := by simp [retire, h]

/-- The end of an instruction in a run with Halted (R91). -/
theorem retire_halted_inRun {s : State} (h : s.inRun = true) :
    retire .halted s = { s with status := .exited } := by simp [retire, h]

/-- Failure entry in a run (R92, R119). -/
theorem retire_failed_inRun {s : State} (k : ErrorKind) (h : s.inRun = true) :
    retire (.failed k) s = { s with status := .failed k } := by simp [retire, h]

/-- The end of an instruction in `executeSingle` (R96). -/
theorem retire_single {s : State} (r : Result) (h : s.inRun = false) :
    retire r s = { s with singleResult := some r } := by simp [retire, h]

@[simp] theorem State.construct_config (c : Config) (m : Memory) : (State.construct c m).config = c := rfl
@[simp] theorem State.construct_status (c : Config) (m : Memory) : (State.construct c m).status = .ready := rfl
@[simp] theorem State.construct_mem (c : Config) (m : Memory) : (State.construct c m).mem = m := rfl

end Sys2Proof.Machine
end

