-- ==== Sys2Proof/Laws/Address.lean ====
section
/-! SUPPORT. The arithmetic of cache addresses (spec 20_memory.md R52, R53) over a valid geometry: the bit fields as
quotients and remainders, and a slot's addresses. -/

namespace Sys2Proof.Machine

/-- What ValidConfig says of a cached configuration, as equations (R131). -/
structure GeometryOk (memBytes addrBits : Nat) (g : CacheGeometry) : Prop where
  block_pos : 4 ≤ g.blockBytes
  blocks_pos : 0 < g.numBlocks
  block_pow : g.blockBytes = 2 ^ g.offBits
  blocks_pow : g.numBlocks = 2 ^ g.idxBits
  cache_eq : g.cacheBytes = g.blockBytes * g.numBlocks
  mem_mult : g.blockBytes ∣ memBytes
  mem_le : memBytes ≤ 2 ^ addrBits
  bits_le : g.offBits + g.idxBits ≤ addrBits

theorem isPow2_iff {n : Nat} : isPow2 n = true ↔ n = 2 ^ n.log2 := by simp [isPow2]

theorem geometryOk_of_valid {c : Config} {g : CacheGeometry} (h : c.valid = true) (hg : c.cache = some g) :
    GeometryOk c.memBytes c.addrBits g := by
  simp only [Config.valid, hg, Option.all_some, CacheGeometry.valid, Bool.and_eq_true, decide_eq_true_eq,
    beq_iff_eq, isPow2_iff] at h
  obtain ⟨⟨⟨⟨_, _⟩, hle⟩, _⟩, ⟨⟨⟨⟨hb, hb4⟩, hc⟩, hcb⟩, hmb⟩, hbits⟩ := h
  have hbpos : 0 < g.blockBytes := by omega
  have hcpos : 0 < g.cacheBytes := by rw [hc]; exact Nat.pow_pos (by omega)
  have hdvd : g.blockBytes ∣ g.cacheBytes := Nat.dvd_of_mod_eq_zero hcb
  have hce : g.cacheBytes = g.blockBytes * g.numBlocks := (Nat.mul_div_cancel' hdvd).symm
  have hnpow : ∃ k, g.numBlocks = 2 ^ k := by
    have h1 : g.numBlocks ∣ 2 ^ g.cacheBytes.log2 := by rw [← hc, hce]; exact Dvd.intro_left _ rfl
    obtain ⟨k, _, hk⟩ := (Nat.dvd_prime_pow Nat.prime_two).1 h1
    exact ⟨k, hk⟩
  obtain ⟨k, hk⟩ := hnpow
  refine ⟨hb4, ?_, hb, ?_, hce, Nat.dvd_of_mod_eq_zero hmb, hle, hbits⟩
  · rw [hk]; exact Nat.pow_pos (by omega)
  · rw [CacheGeometry.idxBits, hk, Nat.log2_two_pow]

section
variable {memBytes addrBits : Nat} {g : CacheGeometry}

theorem decompose_offset (h : GeometryOk memBytes addrBits g) (a : Nat) :
    (decompose addrBits g a).offset = a % g.blockBytes := by
  simp [decompose, bitField, ← h.block_pow]

theorem decompose_index (h : GeometryOk memBytes addrBits g) (a : Nat) :
    (decompose addrBits g a).index = a / g.blockBytes % g.numBlocks := by
  simp [decompose, bitField, ← h.block_pow, ← h.blocks_pow]

theorem cacheBytes_pow (h : GeometryOk memBytes addrBits g) : g.cacheBytes = 2 ^ (g.offBits + g.idxBits) := by
  rw [h.cache_eq, pow_add, ← h.block_pow, ← h.blocks_pow]

theorem addr_pow (h : GeometryOk memBytes addrBits g) : 2 ^ addrBits = g.cacheBytes * 2 ^ g.tagBits addrBits := by
  have := h.bits_le
  rw [cacheBytes_pow h, ← pow_add]
  congr 1
  simp only [CacheGeometry.tagBits]
  omega

theorem decompose_tag (h : GeometryOk memBytes addrBits g) {a : Nat} (ha : a < 2 ^ addrBits) :
    (decompose addrBits g a).tag = a / g.cacheBytes := by
  have : a / g.cacheBytes < 2 ^ g.tagBits addrBits := by
    rw [addr_pow h] at ha; exact Nat.div_lt_of_lt_mul ha
  simp only [decompose, bitField, ← cacheBytes_pow h]
  exact Nat.mod_eq_of_lt this

theorem decompose_tag_lt (a : Nat) : (decompose addrBits g a).tag < 2 ^ g.tagBits addrBits :=
  Nat.mod_lt _ (Nat.pow_pos (by omega))

theorem decompose_index_lt (h : GeometryOk memBytes addrBits g) (a : Nat) :
    (decompose addrBits g a).index < g.numBlocks := by
  rw [decompose_index h]; exact Nat.mod_lt _ h.blocks_pos

theorem decompose_offset_lt (h : GeometryOk memBytes addrBits g) (a : Nat) :
    (decompose addrBits g a).offset < g.blockBytes := by
  rw [decompose_offset h]; have := h.block_pos; exact Nat.mod_lt _ (by omega)

/-- An address is its slot's base plus its offset (R53). -/
theorem slotBase_add_offset (h : GeometryOk memBytes addrBits g) {a : Nat} (ha : a < 2 ^ addrBits) :
    slotBase g (decompose addrBits g a).tag (decompose addrBits g a).index + (decompose addrBits g a).offset = a := by
  rw [decompose_tag h ha, decompose_index h, decompose_offset h, slotBase, h.cache_eq,
    ← Nat.div_div_eq_div_mul]
  have h1 := Nat.div_add_mod (a / g.blockBytes) g.numBlocks
  have h2 := Nat.div_add_mod a g.blockBytes
  calc _ = g.blockBytes * (g.numBlocks * (a / g.blockBytes / g.numBlocks) + a / g.blockBytes % g.numBlocks)
            + a % g.blockBytes := by ring
    _ = a := by rw [h1, h2]

/-- The block-aligned base of an address is the base of the slot it decomposes to (R53). -/
theorem blockBase_eq (h : GeometryOk memBytes addrBits g) {a : Nat} (ha : a < 2 ^ addrBits) :
    blockBase g a = slotBase g (decompose addrBits g a).tag (decompose addrBits g a).index := by
  have := slotBase_add_offset h ha
  rw [decompose_offset h] at this
  rw [blockBase]
  omega

/-- A block that holds an address of Main Memory lies in it whole (R61). -/
theorem blockBase_inside (h : GeometryOk memBytes addrBits g) {a : Nat} (ha : a < memBytes) :
    blockBase g a + g.blockBytes ≤ memBytes := by
  obtain ⟨k, hk⟩ := h.mem_mult
  have hp := h.block_pos
  have h2 := Nat.div_add_mod a g.blockBytes
  have h3 : a / g.blockBytes < k := Nat.div_lt_of_lt_mul (hk ▸ ha)
  have h4 : g.blockBytes * (a / g.blockBytes + 1) ≤ g.blockBytes * k := Nat.mul_le_mul_left _ h3
  rw [Nat.mul_add] at h4
  rw [blockBase]
  omega

/-- The addresses of a slot decompose to its tag and index (R39, R53). -/
theorem decompose_slot (h : GeometryOk memBytes addrBits g) {t i o : Nat} (ht : t < 2 ^ g.tagBits addrBits)
    (hi : i < g.numBlocks) (ho : o < g.blockBytes) :
    decompose addrBits g (slotBase g t i + o) = { tag := t, index := i, offset := o } := by
  have hp := h.block_pos
  have hb : slotBase g t i + o = g.blockBytes * (g.numBlocks * t + i) + o := by rw [slotBase, h.cache_eq]; ring
  have hdiv : (slotBase g t i + o) / g.blockBytes = g.numBlocks * t + i := by
    rw [hb, Nat.mul_add_div (by omega), Nat.div_eq_of_lt ho, Nat.add_zero]
  have hq : (slotBase g t i + o) / g.cacheBytes = t := by
    rw [h.cache_eq, ← Nat.div_div_eq_div_mul, hdiv, Nat.mul_add_div h.blocks_pos, Nat.div_eq_of_lt hi, Nat.add_zero]
  have hlt : slotBase g t i + o < 2 ^ addrBits := by
    rw [addr_pow h]
    have h0 : 0 < g.cacheBytes := by rw [h.cache_eq]; exact Nat.mul_pos (by omega) h.blocks_pos
    have := (Nat.div_lt_iff_lt_mul (k := g.cacheBytes) (x := slotBase g t i + o) h0).1 (hq ▸ ht)
    rwa [Nat.mul_comm]
  have e1 : (decompose addrBits g (slotBase g t i + o)).tag = t := by rw [decompose_tag h hlt, hq]
  have e2 : (decompose addrBits g (slotBase g t i + o)).index = i := by
    rw [decompose_index h, hdiv, Nat.mul_add_mod, Nat.mod_eq_of_lt hi]
  have e3 : (decompose addrBits g (slotBase g t i + o)).offset = o := by
    rw [decompose_offset h, hb, Nat.mul_add_mod, Nat.mod_eq_of_lt ho]
  cases hd : decompose addrBits g (slotBase g t i + o)
  simp_all

/-- Two addresses in one block differ in the offset alone. -/
theorem decompose_add (h : GeometryOk memBytes addrBits g) {a k : Nat} (ha : a < 2 ^ addrBits)
    (hk : (decompose addrBits g a).offset + k < g.blockBytes) :
    decompose addrBits g (a + k) = { decompose addrBits g a with offset := (decompose addrBits g a).offset + k } := by
  have h1 := slotBase_add_offset h ha
  have h2 := decompose_slot h (decompose_tag_lt (addrBits := addrBits) (g := g) a) (decompose_index_lt h a) hk
  rw [← Nat.add_assoc, h1] at h2
  exact h2

/-- The straddle check, as the remainder (R55). -/
theorem straddles_iff (h : GeometryOk memBytes addrBits g) (a : Nat) :
    straddles addrBits g a = true ↔ ¬ a % g.blockBytes + 4 ≤ g.blockBytes := by
  simp [straddles, decompose_offset h]

end

end Sys2Proof.Machine
end

