-- ==== Sys2Proof/Laws/Memory.lean ====
section
/-! SUPPORT. The laws of Main Memory's contents: read after write, the canonical form, the capacity. -/

namespace Sys2Proof.Machine

theorem Memory.wfFrom_mono {lo lo' : Nat} (h : lo ≤ lo') : ∀ {m : Memory}, m.wfFrom lo' = true → m.wfFrom lo = true
  | [], _ => rfl
  | (k, b) :: m, hm => by
    simp only [Memory.wfFrom, Bool.and_eq_true, decide_eq_true_eq] at hm ⊢
    exact ⟨⟨by omega, hm.1.2⟩, hm.2⟩

/-- Below the lower bound nothing is listed. -/
theorem Memory.read_below : ∀ {m : Memory} {lo a : Nat}, m.wfFrom lo = true → a < lo → m.read a = unlistedByte
  | [], _, _, _, _ => rfl
  | (k, b) :: m, lo, a, hm, ha => by
    simp only [Memory.wfFrom, Bool.and_eq_true, decide_eq_true_eq] at hm
    have hne : a ≠ k := by omega
    simp only [Memory.read, hne, if_false]
    exact Memory.read_below hm.2 (by omega)

theorem Memory.wfFrom_put {lo a : Nat} {b : Byte} {m : Memory} (h : m.wfFrom (a + 1) = true) (hlo : lo ≤ a) :
    (Memory.put a b m).wfFrom lo = true := by
  unfold Memory.put
  split
  · exact Memory.wfFrom_mono (by omega) h
  · next hb => simp [Memory.wfFrom, hlo, hb, h]

theorem Memory.read_put {a a' : Nat} {b : Byte} {m : Memory} (h : m.wfFrom (a + 1) = true) :
    (Memory.put a b m).read a' = if a' = a then b else m.read a' := by
  unfold Memory.put
  split
  · next hb =>
    split
    · next ha => subst ha; rw [Memory.read_below h (by omega), hb]
    · rfl
  · rfl

/-- A write keeps the canonical form. -/
theorem Memory.wfFrom_write : ∀ {m : Memory} {lo a : Nat} {b : Byte}, m.wfFrom lo = true → lo ≤ a →
    (m.write a b).wfFrom lo = true
  | [], lo, a, b, _, ha => Memory.wfFrom_put rfl ha
  | (k, v) :: m, lo, a, b, hm, ha => by
    have hm' := hm
    simp only [Memory.wfFrom, Bool.and_eq_true, decide_eq_true_eq] at hm'
    simp only [Memory.write]
    split
    · next h =>
      exact Memory.wfFrom_put (by simp only [Memory.wfFrom, Bool.and_eq_true, decide_eq_true_eq]; exact
        ⟨⟨by omega, hm'.1.2⟩, hm'.2⟩) ha
    · split
      · next h => subst h; exact Memory.wfFrom_put hm'.2 ha
      · simp only [Memory.wfFrom, Bool.and_eq_true, decide_eq_true_eq]
        exact ⟨hm'.1, Memory.wfFrom_write hm'.2 (by omega)⟩

/-- Read after write. -/
theorem Memory.read_write_from : ∀ {m : Memory} {lo a a' : Nat} {b : Byte}, m.wfFrom lo = true →
    (m.write a b).read a' = if a' = a then b else m.read a'
  | [], _, a, a', b, _ => Memory.read_put rfl
  | (k, v) :: m, lo, a, a', b, hm => by
    simp only [Memory.wfFrom, Bool.and_eq_true, decide_eq_true_eq] at hm
    simp only [Memory.write]
    split
    · exact Memory.read_put (by simp only [Memory.wfFrom, Bool.and_eq_true, decide_eq_true_eq]; exact
        ⟨⟨by omega, hm.1.2⟩, hm.2⟩)
    · split
      · next h1 h2 =>
        subst h2
        rw [Memory.read_put hm.2]
        simp only [Memory.read]
        split <;> rfl
      · next h1 h2 =>
        simp only [Memory.read, Memory.read_write_from hm.2]
        split
        · next h3 => subst h3; simp [Ne.symm h2]
        · rfl

theorem Memory.wf_write {m : Memory} (h : m.wf = true) (a : Nat) (b : Byte) : (m.write a b).wf = true :=
  Memory.wfFrom_write h (Nat.zero_le a)

theorem Memory.read_write {m : Memory} (h : m.wf = true) (a a' : Nat) (b : Byte) :
    (m.write a b).read a' = if a' = a then b else m.read a' := Memory.read_write_from h

theorem Memory.within_write {n : Nat} {b : Byte} : ∀ {m : Memory} {a : Nat}, m.within n = true → a < n →
    (m.write a b).within n = true
  | [], a, _, ha => by
    simp only [Memory.write, Memory.put]; split <;> simp [Memory.within, ha]
  | (k, v) :: m, a, hm, ha => by
    have hm' := hm
    simp only [Memory.within, List.all_cons, Bool.and_eq_true, decide_eq_true_eq] at hm'
    simp only [Memory.write]
    split
    · simp only [Memory.put]; split
      · exact hm
      · simp only [Memory.within, List.all_cons, Bool.and_eq_true, decide_eq_true_eq]; exact ⟨ha, hm'⟩
    · split
      · simp only [Memory.put]; split
        · exact hm'.2
        · simp only [Memory.within, List.all_cons, Bool.and_eq_true, decide_eq_true_eq]; exact ⟨ha, hm'.2⟩
      · simp only [Memory.within, List.all_cons, Bool.and_eq_true, decide_eq_true_eq]
        exact ⟨hm'.1, Memory.within_write (m := m) hm'.2 ha⟩

/-- A multi-byte write keeps the canonical form. -/
theorem Memory.wf_writeBytes : ∀ {m : Memory} {a : Nat} {bs : List Byte}, m.wf = true → (m.writeBytes a bs).wf = true
  | _, _, [], h => h
  | m, a, b :: _, h => Memory.wf_writeBytes (m := m.write a b) (Memory.wf_write h a b)

theorem Memory.within_writeBytes {n : Nat} : ∀ {m : Memory} {a : Nat} {bs : List Byte}, m.within n = true →
    a + bs.length ≤ n → (m.writeBytes a bs).within n = true
  | _, _, [], h, _ => h
  | m, a, b :: bs, h, hl => by
    simp only [List.length_cons] at hl
    exact Memory.within_writeBytes (m := m.write a b) (Memory.within_write h (by omega)) (by omega)

/-- What a byte reads as after a multi-byte write: the byte stored there, or what it was. -/
theorem Memory.read_writeBytes : ∀ {m : Memory} {a a' : Nat} {bs : List Byte}, m.wf = true →
    (m.writeBytes a bs).read a' =
      if a ≤ a' ∧ a' < a + bs.length then bs.getD (a' - a) 0 else m.read a'
  | _, a, a', [], _ => by
    rw [if_neg (by simp only [List.length_nil]; omega)]; rfl
  | m, a, a', b :: bs, h => by
    rw [Memory.writeBytes, Memory.read_writeBytes (m := m.write a b) (Memory.wf_write h a b), Memory.read_write h]
    simp only [List.length_cons]
    by_cases h1 : a' = a
    · subst h1; simp
    · by_cases h2 : a + 1 ≤ a' ∧ a' < a + 1 + bs.length
      · rw [if_pos h2, if_pos (by omega), show a' - a = (a' - (a + 1)) + 1 by omega, List.getD_cons_succ]
      · rw [if_neg h2, if_neg h1, if_neg (by omega)]

@[simp] theorem Memory.readBytes_length (m : Memory) : ∀ (a n : Nat), (m.readBytes a n).length = n
  | _, 0 => rfl
  | a, n + 1 => by simp [Memory.readBytes, Memory.readBytes_length m (a + 1) n]

theorem Memory.readBytes_getElem? (m : Memory) : ∀ (a n i : Nat),
    (m.readBytes a n)[i]? = if i < n then some (m.read (a + i)) else none
  | _, 0, i => by simp [Memory.readBytes]
  | a, n + 1, 0 => by simp [Memory.readBytes]
  | a, n + 1, i + 1 => by
    simp only [Memory.readBytes, List.getElem?_cons_succ, Memory.readBytes_getElem? m (a + 1) n i]
    simp only [Nat.add_lt_add_iff_right, show a + 1 + i = a + (i + 1) by omega]

theorem Memory.readBytes_getD (m : Memory) {a n i : Nat} (h : i < n) : (m.readBytes a n).getD i 0 = m.read (a + i) := by
  rw [List.getD_eq_getElem?_getD, Memory.readBytes_getElem?, if_pos h, Option.getD_some]

/-- The bytes read depend on the bytes at those addresses alone. -/
theorem Memory.readBytes_congr {m m' : Memory} : ∀ {a n : Nat}, (∀ x, a ≤ x → x < a + n → m'.read x = m.read x) →
    m'.readBytes a n = m.readBytes a n
  | _, 0, _ => rfl
  | a, n + 1, h => by
    rw [Memory.readBytes, Memory.readBytes, h a (by omega) (by omega),
      Memory.readBytes_congr (a := a + 1) (n := n) fun x h1 h2 => h x (by omega) (by omega)]

end Sys2Proof.Machine
end

