-- ==== Sys2Proof/Laws/Hierarchy.lean ====
section
/-! SUPPORT. What each operation of the memory hierarchy can do, said once (spec 20_memory.md): Main Memory, eviction,
fill, the miss path, the cache write. Each keeps the memory side of the invariant, and none but a write changes the
coherent view (R66). -/

namespace Sys2Proof.Machine

/-- The memory side of the invariant, for a block with the Cache. -/
structure HierOk (g : CacheGeometry) (s : State) : Prop where
  cache : s.config.cache = some g
  geometry : GeometryOk s.config.memBytes s.config.addrBits g
  memCanonical : s.mem.wf = true
  memWithin : s.mem.within s.config.memBytes = true
  count : s.blocks.length = g.numBlocks
  blockOk : ∀ i b, s.blocks[i]? = some b → BlockOk s.config g s.mem i b

theorem StateInv.hierOk {s : State} {g : CacheGeometry} (h : StateInv s) (hg : s.config.cache = some g) : HierOk g s := by
  have hc := h.cacheOk
  simp only [CacheOk, hg] at hc
  exact ⟨hg, geometryOk_of_valid h.configValid hg, h.memCanonical, h.memWithin, hc.1, hc.2⟩

/-- The state with other memory contents and other blocks: all that the hierarchy ever changes. -/
def State.withMemory (s : State) (m : Memory) (bl : List Block) : State := { s with mem := m, blocks := bl }

section
variable {g : CacheGeometry} {s : State}

theorem block_getElem? {i : Nat} (h : i < s.blocks.length) : s.blocks[i]? = some (s.block i) := by
  simp [State.block, List.getD_eq_getElem?_getD, List.getElem?_eq_getElem h]

theorem HierOk.at (h : HierOk g s) {i : Nat} (hi : i < g.numBlocks) : BlockOk s.config g s.mem i (s.block i) :=
  h.blockOk i _ (block_getElem? (h.count ▸ hi))

theorem block_setBlock_same {i : Nat} (b : Block) (h : i < s.blocks.length) : (s.setBlock i b).block i = b := by
  simp [State.block, List.getD_eq_getElem?_getD, h]

theorem block_setBlock_ne {i j : Nat} (b : Block) (h : j ≠ i) : (s.setBlock i b).block j = s.block j := by
  simp [State.block, List.getD_eq_getElem?_getD, Ne.symm h]

/-- The view at an address that hits is the block's byte (R66). -/
theorem view_hit (h : s.config.cache = some g) {a : Nat} {d : Split} (hd : decompose s.config.addrBits g a = d)
    (hh : (s.block d.index).hits d.tag = true) : view s a = (s.block d.index).data.getD d.offset 0 := by
  simp [view, h, hd, hh]

/-- The view at an address that misses is Main Memory's byte (R66). -/
theorem view_miss (h : s.config.cache = some g) {a : Nat} {d : Split} (hd : decompose s.config.addrBits g a = d)
    (hh : (s.block d.index).hits d.tag = false) : view s a = s.mem.read a := by
  simp [view, h, hd, hh]

/-- The view at an address depends on the block of its index and on Main Memory's byte alone. -/
theorem view_congr {t : State} (h : s.config.cache = some g) (hc : t.config = s.config) {a : Nat} {d : Split}
    (hd : decompose s.config.addrBits g a = d) (hb : t.block d.index = s.block d.index)
    (hm : (s.block d.index).hits d.tag = false → t.mem.read a = s.mem.read a) : view t a = view s a := by
  have ht : t.config.cache = some g := hc ▸ h
  have hdt : decompose t.config.addrBits g a = d := hc ▸ hd
  cases hh : (s.block d.index).hits d.tag
  · rw [view_miss h hd hh, view_miss ht hdt (hb ▸ hh), hm hh]
  · rw [view_hit h hd hh, view_hit ht hdt (hb ▸ hh), hb]

theorem Block.hits_iff {b : Block} {t : Nat} : b.hits t = true ↔ b.valid = true ∧ b.tag = t := by
  simp [Block.hits]

/-- An address in the slot of a valid block hits that block (R54). -/
theorem decompose_of_slot (h : HierOk g s) {i a : Nat} (hi : i < g.numBlocks)
    (h1 : slotBase g (s.block i).tag i ≤ a) (h2 : a < slotBase g (s.block i).tag i + g.blockBytes) :
    (decompose s.config.addrBits g a).tag = (s.block i).tag ∧ (decompose s.config.addrBits g a).index = i ∧
    slotBase g (s.block i).tag i + (decompose s.config.addrBits g a).offset = a := by
  have := decompose_slot h.geometry (h.at hi).tagWidth hi (o := a - slotBase g (s.block i).tag i) (by omega)
  rw [show slotBase g (s.block i).tag i + (a - slotBase g (s.block i).tag i) = a by omega] at this
  simp only [this]
  exact ⟨trivial, trivial, by omega⟩

/-- A hit block's address in Main Memory. -/
theorem slot_of_hit (h : HierOk g s) {a : Nat} (ha : a < s.config.memBytes)
    (hh : (s.block (decompose s.config.addrBits g a).index).hits (decompose s.config.addrBits g a).tag = true) :
    slotBase g (s.block (decompose s.config.addrBits g a).index).tag (decompose s.config.addrBits g a).index +
      (decompose s.config.addrBits g a).offset = a := by
  rw [(Block.hits_iff.1 hh).2]
  exact slotBase_add_offset h.geometry (Nat.lt_of_lt_of_le ha h.geometry.mem_le)

/-! ## Eviction -/

/-- Slot `i` holds nothing that Main Memory does not: its block may be replaced. -/
def Backed (g : CacheGeometry) (s : State) (i : Nat) : Prop :=
  (s.block i).valid = true → (s.block i).data = s.mem.readBytes (slotBase g (s.block i).tag i) g.blockBytes

/-- What Evict does to Main Memory (R59). -/
theorem evict_eq (h : HierOk g s) {i : Nat} (hi : i < g.numBlocks) (hv : (s.block i).valid = true) :
    evict g s i =
      .ok (s.withMemory (s.mem.writeBytes (slotBase g (s.block i).tag i) (s.block i).data) s.blocks) := by
  have h1 := (h.at hi).inMemory hv
  have h2 := (h.at hi).dataLength
  unfold evict mainWrite
  rw [if_neg (by omega)]
  rfl

theorem evict_hierOk (h : HierOk g s) {i : Nat} (hi : i < g.numBlocks) (hv : (s.block i).valid = true) :
    HierOk g (s.withMemory (s.mem.writeBytes (slotBase g (s.block i).tag i) (s.block i).data) s.blocks) := by
  have hb := h.at hi
  refine ⟨h.cache, h.geometry, Memory.wf_writeBytes h.memCanonical,
    Memory.within_writeBytes h.memWithin (hb.dataLength ▸ hb.inMemory hv), h.count, ?_⟩
  intro j b hj
  have hjb := h.blockOk j b hj
  have hlt : j < g.numBlocks := by
    have := (List.getElem?_eq_some_iff.1 hj).1; rw [← h.count]; exact this
  have hbj : b = s.block j := by
    have := block_getElem? (s := s) (i := j) (h.count ▸ hlt)
    exact Option.some.inj (hj.symm.trans this)
  refine ⟨hjb.dataLength, hjb.tagWidth, hjb.dirtyValid, hjb.inMemory, fun h1 h2 => ?_⟩
  rw [hjb.clean h1 h2]
  symm
  show Memory.readBytes (s.mem.writeBytes _ _) _ _ = _
  subst hbj
  by_cases hji : j = i
  · subst hji
    refine Memory.readBytes_congr fun x hx1 hx2 => ?_
    rw [Memory.read_writeBytes h.memCanonical, hb.dataLength, if_pos ⟨hx1, hx2⟩, hjb.clean h1 h2,
      Memory.readBytes_getD _ (by omega)]
    congr 1; omega
  · refine Memory.readBytes_congr fun x hx1 hx2 => ?_
    rw [Memory.read_writeBytes h.memCanonical, if_neg]
    rintro ⟨hx3, hx4⟩
    have d1 := decompose_of_slot h hlt hx1 hx2
    have d2 := decompose_of_slot h hi hx3 (by rw [hb.dataLength] at hx4; exact hx4)
    exact hji (d1.2.1.symm.trans d2.2.1)

theorem evict_backed (h : HierOk g s) {i : Nat} (hi : i < g.numBlocks) :
    Backed g (s.withMemory (s.mem.writeBytes (slotBase g (s.block i).tag i) (s.block i).data) s.blocks) i := by
  intro _
  show (s.block i).data = Memory.readBytes (s.mem.writeBytes _ _) _ _
  have hb := h.at hi
  refine List.ext_getElem? fun k => ?_
  rw [Memory.readBytes_getElem?]
  show _ = if k < g.blockBytes then some (Memory.read _ (slotBase g (s.block i).tag i + k)) else none
  split
  · next hk =>
    rw [Memory.read_writeBytes h.memCanonical, if_pos (by rw [hb.dataLength]; omega), Nat.add_sub_cancel_left,
      List.getD_eq_getElem?_getD]
    rw [List.getElem?_eq_getElem (by rw [hb.dataLength]; exact hk)]
    rfl
  · next hk => exact List.getElem?_eq_none (by rw [hb.dataLength]; omega)

theorem evict_view (h : HierOk g s) {i : Nat} (hi : i < g.numBlocks) (hv : (s.block i).valid = true) :
    SameMemory s (s.withMemory (s.mem.writeBytes (slotBase g (s.block i).tag i) (s.block i).data) s.blocks) := by
  intro a _
  have hb := h.at hi
  refine view_congr (t := s.withMemory (s.mem.writeBytes (slotBase g (s.block i).tag i) (s.block i).data) s.blocks) h.cache rfl rfl rfl fun hm => ?_
  show Memory.read (s.mem.writeBytes _ _) a = _
  rw [Memory.read_writeBytes h.memCanonical, if_neg]
  rintro ⟨h3, h4⟩
  have d := decompose_of_slot h hi h3 (by rw [hb.dataLength] at h4; exact h4)
  rw [d.2.1, d.1, Block.hits_iff.2 ⟨hv, rfl⟩] at hm
  exact Bool.noConfusion hm

/-- All that the write-back of a miss can do: nothing, or an eviction; the blocks stay, the view stays, and the
occupant may be replaced afterwards (R56, R57, R59). -/
theorem writeBackVictim_spec (h : HierOk g s) {i : Nat} (hi : i < g.numBlocks) :
    ∃ m, writeBackVictim g s i = .ok (s.withMemory m s.blocks) ∧
      m = (if (s.block i).valid && (s.block i).dirty
           then s.mem.writeBytes (slotBase g (s.block i).tag i) (s.block i).data else s.mem) ∧
      HierOk g (s.withMemory m s.blocks) ∧ SameMemory s (s.withMemory m s.blocks) ∧
      Backed g (s.withMemory m s.blocks) i := by
  unfold writeBackVictim
  cases hvd : ((s.block i).valid && (s.block i).dirty)
  · refine ⟨s.mem, rfl, rfl, h, fun _ _ => rfl, fun hv => ?_⟩
    have hv' : (s.block i).valid = true := hv
    have : (s.block i).dirty = false := by simpa [hv'] using hvd
    exact (h.at hi).clean hv this
  · have hv : (s.block i).valid = true := (Bool.and_eq_true _ _ ▸ hvd).1
    exact ⟨_, evict_eq h hi hv, rfl, evict_hierOk h hi hv, evict_view h hi hv, evict_backed h hi⟩

/-! ## Fill -/

/-- The block a fill leaves (R60). -/
def filledBlock (g : CacheGeometry) (s : State) (addr : Nat) : Block :=
  { valid := true, dirty := false, tag := (decompose s.config.addrBits g addr).tag
    data := s.mem.readBytes (blockBase g addr) g.blockBytes }

/-- All that a fill of a replaceable slot can do (R60). -/
theorem fill_spec (h : HierOk g s) {a : Nat} (ha : a < s.config.memBytes)
    (hback : Backed g s (decompose s.config.addrBits g a).index)
    (hmiss : (s.block (decompose s.config.addrBits g a).index).hits (decompose s.config.addrBits g a).tag = false) :
    fill g s (decompose s.config.addrBits g a).index (decompose s.config.addrBits g a).tag a =
        .ok (s.setBlock (decompose s.config.addrBits g a).index (filledBlock g s a)) ∧
      HierOk g (s.setBlock (decompose s.config.addrBits g a).index (filledBlock g s a)) ∧
      SameMemory s (s.setBlock (decompose s.config.addrBits g a).index (filledBlock g s a)) := by
  have hin := blockBase_inside h.geometry ha
  have hlt : a < 2 ^ s.config.addrBits := Nat.lt_of_lt_of_le ha h.geometry.mem_le
  have hi := decompose_index_lt h.geometry a
  have hbase := blockBase_eq h.geometry hlt
  refine ⟨?_, ⟨h.cache, h.geometry, h.memCanonical, h.memWithin, ?_, ?_⟩, ?_⟩
  · unfold fill mainRead
    rw [if_neg (by omega)]
    rfl
  · simpa using h.count
  · intro j b hj
    simp only [State.setBlock_blocks, State.setBlock_config, State.setBlock_mem, List.getElem?_set] at hj ⊢
    split at hj
    · next hij =>
      subst hij
      rw [if_pos (by rw [h.count]; exact hi)] at hj
      cases hj
      exact ⟨by simp [filledBlock], decompose_tag_lt a, fun h => by simp [filledBlock] at h,
        fun _ => by simp only [filledBlock]; omega, fun _ _ => by simp only [filledBlock, hbase]⟩
    · exact h.blockOk j b hj
  · intro x hx
    have hxs := slotBase_add_offset h.geometry (Nat.lt_of_lt_of_le hx h.geometry.mem_le)
    have hxo := decompose_offset_lt h.geometry x
    have hslot := slot_of_hit h hx
    generalize hdx : decompose s.config.addrBits g x = dx at *
    generalize hda : decompose s.config.addrBits g a = da at *
    by_cases hix : dx.index = da.index
    · have hnew : (s.setBlock da.index (filledBlock g s a)).block dx.index = filledBlock g s a := by
        rw [hix, block_setBlock_same _ (by rw [h.count]; exact hi)]
      have htag : (filledBlock g s a).tag = da.tag := by rw [filledBlock, hda]
      by_cases htx : dx.tag = da.tag
      · rw [view_hit (s := s.setBlock _ _) h.cache hdx (by rw [hnew]; exact Block.hits_iff.2 ⟨rfl, htag.trans htx.symm⟩),
          view_miss h.cache hdx (by rw [hix, htx]; exact hmiss), hnew, filledBlock,
          Memory.readBytes_getD _ hxo, hbase, ← htx, ← hix, hxs]
      · have hnm : (filledBlock g s a).hits dx.tag = false := by
          rw [← Bool.not_eq_true, Block.hits_iff]; exact fun hc => htx (hc.2.symm.trans htag)
        rw [view_miss (s := s.setBlock _ _) h.cache hdx (by rw [hnew]; exact hnm)]
        cases hh : (s.block dx.index).hits dx.tag
        · rw [view_miss h.cache hdx hh]; rfl
        · have hv := (Block.hits_iff.1 hh).1
          rw [view_hit h.cache hdx hh, hix, hback (hix ▸ hv), Memory.readBytes_getD _ hxo, ← hix, hslot hh]
          rfl
    · exact view_congr (t := s.setBlock _ _) h.cache rfl hdx (block_setBlock_ne _ hix) fun _ => rfl

/-! ## The miss path -/

/-- All that making an address resident can do: nothing on a hit; on a miss a write-back and a fill. The invariant and
the view stay, and the address then hits (R56, R57). -/
theorem makeResident_spec (h : HierOk g s) {a : Nat} (ha : a < s.config.memBytes) :
    ∃ m bl, makeResident g s a = .ok (s.withMemory m bl) ∧ HierOk g (s.withMemory m bl) ∧
      SameMemory s (s.withMemory m bl) ∧
      ((s.withMemory m bl).block (decompose s.config.addrBits g a).index).hits
        (decompose s.config.addrBits g a).tag = true := by
  cases hh : (s.block (decompose s.config.addrBits g a).index).hits (decompose s.config.addrBits g a).tag
  · have hi := decompose_index_lt h.geometry a
    obtain ⟨m, hw, -, hok, hview, hback⟩ := writeBackVictim_spec h hi
    obtain ⟨hf, hok', hview'⟩ := fill_spec hok ha hback hh
    refine ⟨m, _, ?_, hok', fun x hx => (hview' x hx).trans (hview x hx), ?_⟩
    · unfold makeResident
      simp only [hh, hw, Bool.false_eq_true, if_false]
      exact hf
    · have := block_setBlock_same (s := s.withMemory m s.blocks) (filledBlock g (s.withMemory m s.blocks) a)
        (i := (decompose s.config.addrBits g a).index) (by show _ < s.blocks.length; rw [h.count]; exact hi)
      exact Block.hits_iff.2 ⟨congrArg Block.valid this, congrArg Block.tag this⟩
  · exact ⟨s.mem, s.blocks, by simp [makeResident, hh, State.withMemory], h, fun _ _ => rfl, hh⟩

/-- On a hit the miss path changes nothing (R56). -/
theorem makeResident_hit {a : Nat}
    (hh : (s.block (decompose s.config.addrBits g a).index).hits (decompose s.config.addrBits g a).tag = true) :
    makeResident g s a = .ok s := by
  simp [makeResident, hh]

/-! ## The cache write -/

@[simp] theorem overwrite_length {d w : List Byte} {o : Nat} (h : o + w.length ≤ d.length) :
    (overwrite d o w).length = d.length := by
  simp only [overwrite, List.length_append, List.length_take, List.length_drop]; omega

theorem overwrite_getD {d w : List Byte} {o k : Nat} (h : o + w.length ≤ d.length) :
    (overwrite d o w).getD k 0 = if o ≤ k ∧ k < o + w.length then w.getD (k - o) 0 else d.getD k 0 := by
  simp only [overwrite, List.getD_eq_getElem?_getD, List.getElem?_append, List.length_append, List.length_take,
    List.getElem?_take, List.getElem?_drop]
  rw [Nat.min_eq_left (by omega)]
  by_cases h1 : k < o
  · rw [if_pos (by omega), if_pos h1, if_pos h1, if_neg (by omega)]
  · by_cases h2 : k < o + w.length
    · rw [if_pos h2, if_neg h1, if_pos (by omega)]
    · rw [if_neg h2, if_neg (by omega)]
      congr 2; omega

/-- All that storing into a resident block can do: the invariant stays, and exactly the bytes stored read otherwise
(R57). -/
theorem store_spec (h : HierOk g s) {a : Nat} {w : List Byte} (ha : a + w.length ≤ s.config.memBytes)
    (hpos : 0 < w.length)
    (hoff : (decompose s.config.addrBits g a).offset + w.length ≤ g.blockBytes)
    (hh : (s.block (decompose s.config.addrBits g a).index).hits (decompose s.config.addrBits g a).tag = true) :
    let d := decompose s.config.addrBits g a
    let t := s.setBlock d.index ((s.block d.index).store d.offset w)
    HierOk g t ∧ ∀ x, x < s.config.memBytes →
      view t x = if a ≤ x ∧ x < a + w.length then w.getD (x - a) 0 else view s x := by
  have halt : a < s.config.memBytes := by omega
  have hlt : a < 2 ^ s.config.addrBits := Nat.lt_of_lt_of_le halt h.geometry.mem_le
  have hi := decompose_index_lt h.geometry a
  have hb := h.at hi
  obtain ⟨hv, ht⟩ := Block.hits_iff.1 hh
  have hlen : (decompose s.config.addrBits g a).offset + w.length ≤
      (s.block (decompose s.config.addrBits g a).index).data.length := by rw [hb.dataLength]; exact hoff
  refine ⟨⟨h.cache, h.geometry, h.memCanonical, h.memWithin, by simpa using h.count, ?_⟩, ?_⟩
  · intro j b hj
    simp only [State.setBlock_blocks, State.setBlock_config, State.setBlock_mem, List.getElem?_set] at hj ⊢
    split at hj
    · next hij =>
      subst hij
      rw [if_pos (by rw [h.count]; exact hi)] at hj
      cases hj
      exact ⟨by simp [Block.store, overwrite_length hlen, hb.dataLength], hb.tagWidth, fun _ => hv, fun _ => hb.inMemory hv,
        fun _ hd => by simp [Block.store] at hd⟩
    · exact h.blockOk j b hj
  · intro x hx
    have hxl : x < 2 ^ s.config.addrBits := Nat.lt_of_lt_of_le hx h.geometry.mem_le
    have hxs := slotBase_add_offset h.geometry hxl
    have has := slotBase_add_offset h.geometry hlt
    have hin : a ≤ x ∧ x < a + w.length →
        (decompose s.config.addrBits g x).index = (decompose s.config.addrBits g a).index ∧
        (decompose s.config.addrBits g x).tag = (decompose s.config.addrBits g a).tag := by
      rintro ⟨h1, h2⟩
      have := decompose_add h.geometry hlt (k := x - a) (by omega)
      rw [show a + (x - a) = x by omega] at this
      rw [this]; exact ⟨rfl, rfl⟩
    generalize hdx : decompose s.config.addrBits g x = dx at *
    generalize hda : decompose s.config.addrBits g a = da at *
    by_cases hix : dx.index = da.index
    · have hnew : (s.setBlock da.index ((s.block da.index).store da.offset w)).block dx.index =
          (s.block da.index).store da.offset w := by rw [hix, block_setBlock_same _ (by rw [h.count]; exact hi)]
      by_cases htx : dx.tag = da.tag
      · rw [view_hit (s := s.setBlock _ _) h.cache hdx (by rw [hnew]; exact Block.hits_iff.2 ⟨hv, ht.trans htx.symm⟩),
          view_hit h.cache hdx (by rw [hix, htx]; exact hh), hnew, Block.store, overwrite_getD hlen, hix]
        rw [htx, hix] at hxs
        by_cases hr : a ≤ x ∧ x < a + w.length
        · rw [if_pos (by omega), if_pos hr]
          congr 1; omega
        · rw [if_neg (by omega), if_neg hr]
      · rw [if_neg fun hr => htx (hin hr).2]
        have hm : (s.block da.index).hits dx.tag = false := by
          rw [← Bool.not_eq_true, Block.hits_iff]; exact fun hc => htx (hc.2.symm.trans ht)
        rw [view_miss (s := s.setBlock _ _) h.cache hdx (by rw [hnew]; exact hm),
          view_miss h.cache hdx (by rw [hix]; exact hm)]
        rfl
    · rw [if_neg fun hr => hix (hin hr).1]
      exact view_congr (t := s.setBlock _ _) h.cache rfl hdx (block_setBlock_ne _ hix) fun _ => rfl

end

end Sys2Proof.Machine
end

