-- ==== Sys2Proof/Laws/Registers.lean ====
section
/-! SUPPORT. The laws of the Register File (spec 10_state.md R23 to R27). -/

namespace Sys2Proof.Machine

@[simp] theorem updateReg_length : ∀ (ns : List RegName) (ws : List Word) (r : RegName) (v : Word),
    (updateReg ns ws r v).length = ws.length
  | [], ws, _, _ => by simp [updateReg]
  | _ :: _, [], _, _ => by simp [updateReg]
  | n :: ns, w :: ws, r, v => by
    simp only [updateReg]; split <;> simp [updateReg_length ns ws r v]

/-- A total file holds a value under every one of its names. -/
theorem lookupReg_isSome : ∀ {ns : List RegName} {ws : List Word} {r : RegName}, ws.length = ns.length →
    ((lookupReg ns ws r).isSome = true ↔ r ∈ ns)
  | [], ws, r, h => by cases ws <;> simp_all [lookupReg]
  | n :: ns, [], r, h => by simp at h
  | n :: ns, w :: ws, r, h => by
    simp only [lookupReg]
    split
    · next hn => simp [hn]
    · next hn =>
      rw [lookupReg_isSome (by simpa using h), List.mem_cons]
      exact ⟨.inr, fun h => h.elim (fun h => absurd h.symm hn) id⟩

theorem lookupReg_update_same : ∀ {ns : List RegName} {ws : List Word} {r : RegName} {v : Word},
    (lookupReg ns ws r).isSome = true → lookupReg ns (updateReg ns ws r v) r = some v
  | [], ws, r, v, h => by simp [lookupReg] at h
  | n :: ns, [], r, v, h => by simp [lookupReg] at h
  | n :: ns, w :: ws, r, v, h => by
    simp only [updateReg]
    split
    · next hn => simp [lookupReg, hn]
    · next hn =>
      simp only [lookupReg, hn, if_false] at h ⊢
      exact lookupReg_update_same h

theorem lookupReg_update_ne : ∀ {ns : List RegName} {ws : List Word} {r r' : RegName} {v : Word}, r' ≠ r →
    lookupReg ns (updateReg ns ws r v) r' = lookupReg ns ws r'
  | [], ws, r, r', v, h => by simp [updateReg]
  | n :: ns, [], r, r', v, h => by simp [updateReg]
  | n :: ns, w :: ws, r, r', v, h => by
    simp only [updateReg]
    split
    · next hn => simp [lookupReg, hn, Ne.symm h]
    · simp only [lookupReg]; split
      · rfl
      · exact lookupReg_update_ne h

/-- Reading depends on the parameters and on REGS alone. -/
theorem readReg_congr {s t : State} (hc : t.config = s.config) (hr : t.regs = s.regs) (r : RegName) :
    t.readReg r = s.readReg r := by simp [State.readReg, hc, hr]

theorem getReg_of_readReg {s : State} {r : RegName} {w : Word} (h : s.readReg r = some w) : s.getReg r = w := by
  simp [State.getReg, h]

/-- The register written reads as the value stored (R26). -/
theorem State.readReg_setReg_same {s : State} {r : RegName} (v : Int) (h : s.hasReg r = true) :
    (s.setReg r v).readReg r = some (trunc32 v) := lookupReg_update_same h

/-- Only the named register changes (R26). -/
theorem State.readReg_setReg_ne {s : State} {r r' : RegName} (v : Int) (h : r' ≠ r) :
    (s.setReg r v).readReg r' = s.readReg r' := lookupReg_update_ne h

@[simp] theorem State.setReg_regs_length (s : State) (r : RegName) (v : Int) :
    (s.setReg r v).regs.length = s.regs.length := updateReg_length ..

/-- A register is readable exactly when REG_NAMES holds its name (R25). -/
theorem State.hasReg_iff {s : State} (h : s.regs.length = s.config.regNames.length) (r : RegName) :
    s.hasReg r = true ↔ r ∈ s.config.regNames := lookupReg_isSome h

@[simp] theorem retire_readReg (x : Result) (s : State) (r : RegName) : (retire x s).readReg r = s.readReg r :=
  readReg_congr (by simp) (by simp) r

@[simp] theorem takeLine_readReg (l : List Text) (s : State) (r : RegName) :
    (takeLine l s).readReg r = s.readReg r := rfl

@[simp] theorem takeLine_getReg (l : List Text) (s : State) (r : RegName) :
    (takeLine l s).getReg r = s.getReg r := rfl

@[simp] theorem State.setBlock_readReg (s : State) (i : Nat) (b : Block) (r : RegName) :
    (s.setBlock i b).readReg r = s.readReg r := rfl

/-- The name check passes when every name is in REG_NAMES. -/
theorem requireRegs_of_mem {s : State} {rs : List RegName} {act : Out}
    (hl : s.regs.length = s.config.regNames.length) (h : ∀ r ∈ rs, r ∈ s.config.regNames) :
    requireRegs rs s act = act := by
  rw [requireRegs, if_pos]
  rw [List.all_eq_true]
  exact fun r hr => (State.hasReg_iff hl r).2 (h r hr)

/-- What the name check can do: run the instruction, or raise UnknownRegister with nothing written. -/
theorem requireRegs_cases (rs : List RegName) (s : State) (act : Out) :
    (rs.all s.hasReg = true ∧ requireRegs rs s act = act) ∨
    (rs.all s.hasReg = false ∧ requireRegs rs s act = fail .unknownRegister s) := by
  unfold requireRegs
  cases h : rs.all s.hasReg <;> simp

/-- Truncation after the signed reading gives the pattern back (R14). -/
@[simp] theorem trunc32_sint32 (w : Word) : trunc32 (sint32 w) = w := by simp [trunc32, sint32]

theorem trunc32_add_sint32 (a b : Word) : trunc32 (sint32 a + sint32 b) = a + b := by
  simp [trunc32, sint32, BitVec.ofInt_add]

theorem trunc32_sint32_add (a : Word) (v : Int) : trunc32 (sint32 a + v) = a + BitVec.ofInt 32 v := by
  simp [trunc32, sint32, BitVec.ofInt_add]

end Sys2Proof.Machine
end

