-- ==== Sys2Proof/Laws/Access.lean ====
section
/-! SUPPORT. All that the engine's two memory operations can do, with the Cache or without it (spec 20_memory.md R45
to R48, R55, R66): which error, or which bytes and which view afterwards. -/

namespace Sys2Proof.Machine

/-- The memory side of the invariant, with the Cache or without it. -/
structure MemOk (s : State) : Prop where
  configValid : s.config.valid = true
  memCanonical : s.mem.wf = true
  memWithin : s.mem.within s.config.memBytes = true
  cacheOk : CacheOk s

theorem StateInv.memOk {s : State} (h : StateInv s) : MemOk s := ⟨h.configValid, h.memCanonical, h.memWithin, h.cacheOk⟩

section
variable {g : CacheGeometry} {s : State}

theorem MemOk.hierOk (h : MemOk s) (hg : s.config.cache = some g) : HierOk g s := by
  have hc := h.cacheOk
  simp only [CacheOk, hg] at hc
  exact ⟨hg, geometryOk_of_valid h.configValid hg, h.memCanonical, h.memWithin, hc.1, hc.2⟩

theorem HierOk.memOk {t : State} (h : HierOk g t) (hv : t.config.valid = true) : MemOk t :=
  ⟨hv, h.memCanonical, h.memWithin, by simp only [CacheOk, h.cache]; exact ⟨h.count, h.blockOk⟩⟩

theorem inBounds_iff (s : State) (a : Int) : inBounds s a = true ↔ s.wordInside a := by
  simp [inBounds, State.wordInside]

@[simp] theorem le32_length (w : Word) : (le32 w).length = 4 := rfl

/-- The four bytes the hierarchy holds at `a` (R66). -/
def viewBytes (s : State) (a : Nat) : List Byte := [view s a, view s (a + 1), view s (a + 2), view s (a + 3)]

/-- Four consecutive bytes of a list. -/
theorem take_four (l : List Byte) (o : Nat) (h : o + 4 ≤ l.length) :
    (l.drop o).take 4 = [l.getD o 0, l.getD (o + 1) 0, l.getD (o + 2) 0, l.getD (o + 3) 0] := by
  refine List.ext_getElem (by simp; omega) fun k h1 h2 => ?_
  have hk : k < 4 := by simpa using h2
  have hg : ∀ j (hj : j < 4), l.getD (o + j) 0 = l[o + j]'(by omega) := fun j hj => by
    rw [List.getD_eq_getElem?_getD, List.getElem?_eq_getElem (by omega), Option.getD_some]
  rw [List.getElem_take, List.getElem_drop, ← hg k hk]
  rcases k with _ | _ | _ | _ | k
  · rfl
  · rfl
  · rfl
  · rfl
  · omega

/-- `MemRead`: outside memory, OutOfBounds (R47). -/
theorem memRead_outside {a : Int} (h : ¬ s.wordInside a) : memRead s a = .error .outOfBounds := by
  rw [← inBounds_iff] at h
  simp [memRead, h]

/-- `MemWrite`: outside memory, OutOfBounds (R47). -/
theorem memWrite_outside {a : Int} {w : List Byte} (h : ¬ s.wordInside a) :
    memWrite s a w = .error .outOfBounds := by
  rw [← inBounds_iff] at h
  simp [memWrite, h]

/-- Across a block boundary: the straddle check fires (R55). -/
theorem straddles_of_not_inBlock (h : MemOk s) {a : Int} (hb : ¬ s.wordInBlock a) :
    ∃ g, s.config.cache = some g ∧ straddles s.config.addrBits g a.toNat = true := by
  simp only [State.wordInBlock, not_forall] at hb
  obtain ⟨g, hg, hb⟩ := hb
  exact ⟨g, hg, (straddles_iff (h.hierOk hg).geometry _).2 hb⟩

theorem memRead_straddling (h : MemOk s) {a : Int} (hi : s.wordInside a) (hb : ¬ s.wordInBlock a) :
    memRead s a = .error .straddlingAccessUnsupported := by
  obtain ⟨g, hg, hs⟩ := straddles_of_not_inBlock h hb
  simp [memRead, (inBounds_iff s a).2 hi, hg, cacheRead, hs]

theorem memWrite_straddling (h : MemOk s) {a : Int} {w : List Byte} (hi : s.wordInside a) (hb : ¬ s.wordInBlock a) :
    memWrite s a w = .error .straddlingAccessUnsupported := by
  obtain ⟨g, hg, hs⟩ := straddles_of_not_inBlock h hb
  simp [memWrite, (inBounds_iff s a).2 hi, hg, cacheWrite, hs]

theorem toNat_inside {a : Int} (hi : s.wordInside a) : a.toNat + 4 ≤ s.config.memBytes := by
  obtain ⟨h0, h1⟩ := hi; omega

/-- `MemRead` inside one block: the four bytes of the view, which stays (R45, R56, R66). -/
theorem memRead_inside (h : MemOk s) {a : Int} (hi : s.wordInside a) (hb : s.wordInBlock a) :
    ∃ m bl, memRead s a = .ok (viewBytes s a.toNat, s.withMemory m bl) ∧ MemOk (s.withMemory m bl) ∧
      SameMemory s (s.withMemory m bl) := by
  have hin := toNat_inside hi
  cases hg : s.config.cache with
  | none =>
    refine ⟨s.mem, s.blocks, ?_, h, fun _ _ => rfl⟩
    have hneg : ¬ (a < 0 ∨ a + ((4 : Nat) : Int) > s.config.memBytes) := by
      obtain ⟨h0, h1⟩ := hi; omega
    simp only [memRead, (inBounds_iff s a).2 hi, if_true, hg, mainRead, hneg, if_false]
    simp [viewBytes, view, hg, Memory.readBytes, State.withMemory]
  | some g =>
    have hh := h.hierOk hg
    have halt : a.toNat < s.config.memBytes := by omega
    have hlt : a.toNat < 2 ^ s.config.addrBits := Nat.lt_of_lt_of_le halt hh.geometry.mem_le
    have hoff : (decompose s.config.addrBits g a.toNat).offset + 4 ≤ g.blockBytes := by
      rw [decompose_offset hh.geometry]; exact hb g hg
    have hns : straddles s.config.addrBits g a.toNat = false := by
      rw [← Bool.not_eq_true, straddles_iff hh.geometry]; exact fun hc => hc (hb g hg)
    obtain ⟨m, bl, hr, hok, hview, hhit⟩ := makeResident_spec hh halt
    refine ⟨m, bl, ?_, hok.memOk h.configValid, hview⟩
    simp only [memRead, (inBounds_iff s a).2 hi, if_true, hg, cacheRead, hns, Bool.false_eq_true, if_false, hr]
    congr 2
    have hlen := (hok.at (decompose_index_lt hh.geometry a.toNat)).dataLength
    rw [take_four _ _ (by rw [hlen]; exact hoff)]
    have hbyte : ∀ k, k < 4 → ((s.withMemory m bl).block (decompose s.config.addrBits g a.toNat).index).data.getD
        ((decompose s.config.addrBits g a.toNat).offset + k) 0 = view s (a.toNat + k) := by
      intro k hk
      rw [← hview (a.toNat + k) (by omega)]
      exact (view_hit (s := s.withMemory m bl) hok.cache
        (decompose_add hh.geometry hlt (k := k) (by omega)) hhit).symm
    simp only [viewBytes]
    rw [hbyte 1 (by omega), hbyte 2 (by omega), hbyte 3 (by omega)]
    exact congrArg (· :: _) (hbyte 0 (by omega))

/-- `MemWrite` inside one block: the view changes at the four addresses and nowhere else (R46, R57, R66). -/
theorem memWrite_inside (h : MemOk s) {a : Int} {w : List Byte} (hw : w.length = 4) (hi : s.wordInside a)
    (hb : s.wordInBlock a) :
    ∃ m bl, memWrite s a w = .ok (s.withMemory m bl) ∧ MemOk (s.withMemory m bl) ∧
      ∀ x, x < s.config.memBytes →
        view (s.withMemory m bl) x =
          if a.toNat ≤ x ∧ x < a.toNat + 4 then w.getD (x - a.toNat) 0 else view s x := by
  have hin := toNat_inside hi
  cases hg : s.config.cache with
  | none =>
    refine ⟨s.mem.writeBytes a.toNat w, s.blocks, ?_, ⟨h.configValid, Memory.wf_writeBytes h.memCanonical,
      Memory.within_writeBytes h.memWithin (by rw [hw]; exact hin), ?_⟩, fun x _ => ?_⟩
    · have hneg : ¬ (a < 0 ∨ a + (w.length : Int) > s.config.memBytes) := by
        obtain ⟨h0, h1⟩ := hi; rw [hw]; omega
      simp only [memWrite, (inBounds_iff s a).2 hi, if_true, hg, mainWrite, hneg, if_false]
      rfl
    · have := h.cacheOk
      simp only [CacheOk, hg, State.withMemory] at this ⊢
      exact this
    · have e1 : view (s.withMemory (s.mem.writeBytes a.toNat w) s.blocks) x = (s.mem.writeBytes a.toNat w).read x := by
        simp [view, State.withMemory, hg]
      have e2 : view s x = s.mem.read x := by simp [view, hg]
      rw [e1, e2, Memory.read_writeBytes h.memCanonical, hw]
  | some g =>
    have hh := h.hierOk hg
    have halt : a.toNat < s.config.memBytes := by omega
    have hoff : (decompose s.config.addrBits g a.toNat).offset + 4 ≤ g.blockBytes := by
      rw [decompose_offset hh.geometry]; exact hb g hg
    have hns : straddles s.config.addrBits g a.toNat = false := by
      rw [← Bool.not_eq_true, straddles_iff hh.geometry]; exact fun hc => hc (hb g hg)
    obtain ⟨m, bl, hr, hok, hview, hhit⟩ := makeResident_spec hh halt
    obtain ⟨hok', hst⟩ := store_spec hok (w := w) (by rw [hw]; exact hin) (by omega) (by rw [hw]; exact hoff) hhit
    refine ⟨m, _, ?_, hok'.memOk h.configValid, fun x hx => ?_⟩
    · simp only [memWrite, (inBounds_iff s a).2 hi, if_true, hg, cacheWrite, hns, Bool.false_eq_true, if_false, hr]
      rfl
    · have := hst x hx
      rw [hw, hview x hx] at this
      exact this

/-- The word made of four bytes, lowest first (R15). -/
theorem unle32_four (b0 b1 b2 b3 : Byte) : unle32 [b0, b1, b2, b3] = b3 ++ b2 ++ b1 ++ b0 := by
  apply BitVec.eq_of_toNat_eq
  have h0 := b0.isLt; have h1 := b1.isLt; have h2 := b2.isLt; have h3 := b3.isLt
  simp only [unle32, littleEndian, BitVec.toNat_ofNat, BitVec.toNat_append]
  rw [← Nat.shiftLeft_add_eq_or_of_lt h0, ← Nat.shiftLeft_add_eq_or_of_lt h1, ← Nat.shiftLeft_add_eq_or_of_lt h2]
  simp only [Nat.shiftLeft_eq]
  omega

/-- The word read is the word of the view (R44, R66). -/
theorem unle32_viewBytes (s : State) (a : Nat) : unle32 (viewBytes s a) = viewWord s a := unle32_four ..

/-- The bytes of a word give the word back (R15). -/
theorem unle32_le32 (w : Word) : unle32 (le32 w) = w := by
  apply BitVec.eq_of_toNat_eq
  simp only [le32, unle32, littleEndian, BitVec.toNat_ofNat, BitVec.extractLsb'_toNat, Nat.shiftRight_eq_div_pow]
  have := w.isLt
  omega

end

end Sys2Proof.Machine
end

