-- ==== Sys2Proof/Laws/Decode.lean ====
section
/-! SUPPORT. The small laws of the operand tokens (spec 30_encoding.md R75 to R77) and of the opcode map (R74): what
each reader gives on what the encoder writes. -/

namespace Sys2Proof

/-! ## Digits -/

theorem digitVal_digitChar {d : Nat} (h : d < 10) : digitVal (digitChar d) = some d := by
  interval_cases d <;> decide

theorem digitChar_ne {d : Nat} (h : d < 10) (c : Char) (hc : digitVal c = none) : digitChar d ≠ c := by
  intro he; rw [← he, digitVal_digitChar h] at hc; cases hc

theorem parseDigits_append : ∀ (t u : Text) (acc : Nat),
    parseDigits acc (t ++ u) = (parseDigits acc t).bind fun n => parseDigits n u
  | [], _, _ => rfl
  | c :: t, u, acc => by
    simp only [List.cons_append, parseDigits]
    split
    · exact parseDigits_append t u _
    · rfl

/-- The digits written before a text are read, and then the text. -/
theorem parseDigits_digitsBefore : ∀ (fuel n : Nat) (t : Text), n < fuel →
    parseDigits 0 (digitsBefore fuel n t) = parseDigits n t
  | 0, _, _, h => absurd h (Nat.not_lt_zero _)
  | fuel + 1, n, t, h => by
    have hd : n % 10 < 10 := Nat.mod_lt _ (by omega)
    simp only [digitsBefore]
    split
    · simp only [parseDigits, digitVal_digitChar hd]
      congr 1; omega
    · rw [parseDigits_digitsBefore fuel (n / 10) _ (by omega)]
      simp only [parseDigits, digitVal_digitChar hd]
      congr 1; omega

theorem digitsBefore_digits : ∀ (fuel n : Nat) (t : Text), n < fuel →
    ∃ d u, d < 10 ∧ digitsBefore fuel n t = digitChar d :: (u ++ t) ∧ ∀ c ∈ u, ∃ e, e < 10 ∧ c = digitChar e
  | 0, _, _, h => absurd h (Nat.not_lt_zero _)
  | fuel + 1, n, t, h => by
    have hd : n % 10 < 10 := Nat.mod_lt _ (by omega)
    simp only [digitsBefore]
    split
    · exact ⟨_, [], hd, rfl, by simp⟩
    · obtain ⟨d, u, h1, h2, h3⟩ := digitsBefore_digits fuel (n / 10) (digitChar (n % 10) :: t) (by omega)
      refine ⟨d, u ++ [digitChar (n % 10)], h1, by simpa using h2, fun c hc => ?_⟩
      rcases List.mem_append.1 hc with hc | hc
      · exact h3 c hc
      · exact ⟨_, hd, List.mem_singleton.1 hc⟩

/-- A decimal numeral begins with a digit and has digits alone. -/
theorem decimal_digits (n : Nat) :
    ∃ d u, d < 10 ∧ decimal n = digitChar d :: u ∧ ∀ c ∈ u, ∃ e, e < 10 ∧ c = digitChar e := by
  obtain ⟨d, u, h1, h2, h3⟩ := digitsBefore_digits (n + 1) n [] (by omega)
  exact ⟨d, u, h1, by rw [decimal, h2, List.append_nil], h3⟩

@[simp] theorem parseNat_decimal (n : Nat) : parseNat (decimal n) = some n := by
  obtain ⟨d, u, _, h2, _⟩ := decimal_digits n
  have := parseDigits_digitsBefore (n + 1) n [] (by omega)
  rw [← decimal] at this
  rw [h2] at this ⊢
  exact this

/-- An immediate token reads as the value it was written from (R76). -/
@[simp] theorem parseImm_encodeImm (v : Int) : parseImm (encodeImm v) = some v := by
  cases v with
  | ofNat n =>
    obtain ⟨d, u, h1, h2, _⟩ := decimal_digits n
    have e1 : digitChar d ≠ '-' := digitChar_ne h1 _ (by decide)
    have e2 : digitChar d ≠ '+' := digitChar_ne h1 _ (by decide)
    have e3 : parseImm (decimal n) = (parseNat (decimal n)).map fun k : Nat => (k : Int) := by
      rw [h2]; unfold parseImm; split
      · next heq => exact absurd (List.cons.inj heq).1 e1
      · next heq => exact absurd (List.cons.inj heq).1 e2
      · rfl
    simp [encodeImm, e3]
  | negSucc n =>
    simp [encodeImm, parseImm]
    omega

/-! ## Memory operands -/

theorem cutAtOpen_append : ∀ {off rest : Text}, '(' ∉ off → cutAtOpen (off ++ '(' :: rest) = some (off, rest)
  | [], _, _ => rfl
  | c :: off, rest, h => by
    rw [List.mem_cons, not_or] at h
    simp [cutAtOpen, Ne.symm h.1, cutAtOpen_append h.2]

theorem cutAtClose_append : ∀ {r : Text}, '(' ∉ r → ')' ∉ r → cutAtClose (r ++ [')']) = some r
  | [], _, _ => rfl
  | c :: r, h1, h2 => by
    rw [List.mem_cons, not_or] at h1 h2
    simp [cutAtClose, Ne.symm h1.1, Ne.symm h2.1, cutAtClose_append h1.2 h2.2]

/-- A token cut at its first opening parenthesis is what stands before and after it. -/
theorem cutAtOpen_inv : ∀ {t a b : Text}, cutAtOpen t = some (a, b) → '(' ∉ a ∧ t = a ++ '(' :: b
  | [], _, _, h => by cases h
  | c :: t, a, b, h => by
    simp only [cutAtOpen] at h
    split at h
    · next hc => cases h; exact ⟨by simp, by simp [hc]⟩
    · next hc =>
      obtain ⟨⟨a', b'⟩, h1, h2⟩ := Option.map_eq_some_iff.1 h
      cases h2
      obtain ⟨h3, h4⟩ := cutAtOpen_inv h1
      exact ⟨by simp [h3, Ne.symm hc], by simp [h4]⟩

/-- What stands before the final closing parenthesis holds no parenthesis. -/
theorem cutAtClose_inv : ∀ {t r : Text}, cutAtClose t = some r → '(' ∉ r ∧ ')' ∉ r ∧ t = r ++ [')']
  | [], _, h => by cases h
  | c :: t, r, h => by
    simp only [cutAtClose] at h
    split at h
    · cases h
    · next hc =>
      split at h
      · next hc2 =>
        split at h
        · next ht => cases h; simp [hc2, ht]
        · cases h
      · next hc2 =>
        obtain ⟨r', h1, rfl⟩ := Option.map_eq_some_iff.1 h
        obtain ⟨a, b, d⟩ := cutAtClose_inv h1
        exact ⟨by simp [a, Ne.symm hc], by simp [b, Ne.symm hc2], by simp [d]⟩

/-- The digits read and their value. -/
theorem parseDigits_iff : ∀ {t : Text} {acc n : Nat}, parseDigits acc t = some n ↔
    (∀ c ∈ t, 48 ≤ c.toNat ∧ c.toNat ≤ 57) ∧ n = t.foldl (fun n c => 10 * n + (c.toNat - 48)) acc
  | [], acc, n => by simp [parseDigits, eq_comm]
  | c :: t, acc, n => by
    simp only [parseDigits, digitVal, List.mem_cons, forall_eq_or_imp, List.foldl_cons]
    by_cases hc : 48 ≤ c.toNat ∧ c.toNat ≤ 57
    · simp only [hc, and_self, if_true, true_and]
      rw [parseDigits_iff, Nat.mul_comm acc 10]
    · simp [hc]

theorem encodeImm_noParen (v : Int) : '(' ∉ encodeImm v := by
  have hd : ∀ n, '(' ∉ decimal n := by
    intro n hm
    obtain ⟨d, u, h1, h2, h3⟩ := decimal_digits n
    rw [h2, List.mem_cons] at hm
    rcases hm with hm | hm
    · exact digitChar_ne h1 _ (by decide) hm.symm
    · obtain ⟨e, he, hc⟩ := h3 _ hm
      exact digitChar_ne he _ (by decide) hc.symm
  cases v with
  | ofNat n => exact hd n
  | negSucc n => simp [encodeImm, hd]

theorem noParen_iff (r : RegName) : noParen r = true ↔ '(' ∉ r ∧ ')' ∉ r := by
  simp only [noParen, List.all_eq_true, Bool.and_eq_true, bne_iff_ne]
  exact ⟨fun h => ⟨fun hm => (h _ hm).1 rfl, fun hm => (h _ hm).2 rfl⟩,
    fun h c hc => ⟨fun he => h.1 (he ▸ hc), fun he => h.2 (he ▸ hc)⟩⟩

/-- A memory operand reads as the offset and the register it was written from (R77). -/
theorem parseMem_encodeMem (off : Int) {r : RegName} (h : noParen r = true) :
    parseMem (encodeMem off r) = some (off, '$' :: r) := by
  obtain ⟨h1, h2⟩ := (noParen_iff r).1 h
  have e : encodeMem off r = encodeImm off ++ '(' :: (('$' :: r) ++ [')']) := by simp [encodeMem, encodeReg]
  unfold parseMem
  rw [e, cutAtOpen_append (encodeImm_noParen off)]
  simp only [parseImm_encodeImm]
  rw [cutAtClose_append (by simp [h1]) (by simp [h2])]

@[simp] theorem regOfToken_dollar (t : Text) : regOfToken ('$' :: t) = t := rfl

@[simp] theorem regOfToken_encodeReg (r : RegName) : regOfToken (encodeReg r) = r := rfl

/-! ## The opcode map -/

@[simp] theorem Op.ofMnemonic_mnemonic (o : Op) : Op.ofMnemonic o.mnemonic = some o := by
  cases o <;> decide

theorem Op.ofMnemonic_eq {m : Text} {o : Op} (h : Op.ofMnemonic m = some o) : m = o.mnemonic := by
  have := List.find?_some h
  exact (by simpa using this : o.mnemonic = m).symm

/-- The kind of a token that gave an operand. -/
def Operand.kind : Operand → OperandKind
  | .reg _ => .reg
  | .imm _ => .imm
  | .mem _ _ => .mem

theorem parseOperand_kind {k : OperandKind} {t : Text} {o : Operand} (h : parseOperand k t = some o) : o.kind = k := by
  cases k <;> simp only [parseOperand, Option.map_eq_some_iff, Option.some.injEq] at h
  · subst h; rfl
  · obtain ⟨_, _, rfl⟩ := h; rfl
  · obtain ⟨_, _, rfl⟩ := h; rfl

/-- Operands that pass the syntax checks are of the kinds of their row. -/
theorem parseOperands_kinds : ∀ {ks : List OperandKind} {ts : List Text} {os : List Operand},
    parseOperands ks ts = some os → os.map Operand.kind = ks
  | [], _, os, h => by cases h; rfl
  | _ :: _, [], _, h => by cases h
  | k :: ks, t :: ts, os, h => by
    simp only [parseOperands] at h
    split at h
    · cases h
    · next o ho =>
      obtain ⟨os', h1, rfl⟩ := Option.map_eq_some_iff.1 h
      simp [parseOperand_kind ho, parseOperands_kinds h1]

/-- Operands of the kinds of a row build an instruction of that row. -/
theorem Op.build_of_kinds {op : Op} {os : List Operand} (h : os.map Operand.kind = op.shape) :
    ∃ i, op.build os = some i ∧ i.op = op := by
  cases op <;> simp only [Op.shape] at h
  all_goals
    rcases os with _ | ⟨a, _ | ⟨b, _ | ⟨c, _ | ⟨d, os⟩⟩⟩⟩ <;> simp at h
  all_goals first
    | exact ⟨_, rfl, rfl⟩
    | (obtain ⟨h1, h2, h3⟩ := h
       cases a <;> cases h1; cases b <;> cases h2; cases c <;> cases h3; exact ⟨_, rfl, rfl⟩)
    | (obtain ⟨h1, h2⟩ := h
       cases a <;> cases h1; cases b <;> cases h2; exact ⟨_, rfl, rfl⟩)

@[simp] theorem operandTokens_length (i : Instr) : i.operandTokens.length = i.op.shape.length := by
  cases i <;> rfl

end Sys2Proof
end

