-- ==== Sys2Proof/Laws/Exec.lean ====
section
/-! SUPPORT. What executing one instruction can do, said once: the possible ends of `exec`, and the result of each
meaning on a well-formed instruction. -/

namespace Sys2Proof.Machine

/-- The ways an instruction ends in a next state. -/
inductive ExecShape (i : Instr) (s : State) : State → Prop where
  /-- failure entry, with nothing else changed (R92, R95); `lw` and `sw` alone fail on memory (R115) -/
  | failed (k : ErrorKind)
      (hk : k = .unknownRegister ∨
        ((k = .outOfBounds ∨ k = .straddlingAccessUnsupported) ∧
          ((∃ rd off rs, i = .lw rd off rs) ∨ ∃ rs off rt, i = .sw rs off rt)) ∨
        (k = .unknownSyscall ∧ i = .syscall)) : ExecShape i s (retire (.failed k) s)
  /-- a register written, after what the hierarchy did where the instruction is `lw` (R29) -/
  | wrote (m : Memory) (bl : List Block) (rd : RegName) (v : Int) (hd : i.dest? = some rd)
      (hm : MemOk (s.withMemory m bl)) (hv : SameMemory s (s.withMemory m bl)) :
      ExecShape i s (retire .continued ((s.withMemory m bl).setReg rd v))
  /-- memory written, by `sw` (R106) -/
  | stored (m : Memory) (bl : List Block) (rs : RegName) (off : Int) (rt : RegName) (hi : i = .sw rs off rt)
      (hm : MemOk (s.withMemory m bl))
      (hin : s.wordInside (effAddr s rt off)) (hb : s.wordInBlock (effAddr s rt off))
      (hv : ∀ x, x < s.config.memBytes → view (s.withMemory m bl) x =
        if (effAddr s rt off).toNat ≤ x ∧ x < (effAddr s rt off).toNat + 4
        then (le32 (s.getReg rs)).getD (x - (effAddr s rt off).toNat) 0 else view s x) :
      ExecShape i s (retire .continued (s.withMemory m bl))
  /-- print (R109) -/
  | printed (hi : i = .syscall) (hv : sint32 (s.getReg regV0) = 1) :
      ExecShape i s (retire .continued { s with out := s.out ++ [sint32 (s.getReg regA0)] })
  /-- read_int with a line that is an integer (R110) -/
  | readLine (hi : i = .syscall) (hv : sint32 (s.getReg regV0) = 5) (line : Text) (rest : List Text)
      (hl : s.input = line :: rest) (v : Int) (hp : intLine line = some v) :
      ExecShape i s (retire .continued ((takeLine rest s).setReg regV0 v))
  /-- read_int with a line that is not (R110) -/
  | badLine (hi : i = .syscall) (hv : sint32 (s.getReg regV0) = 5) (line : Text) (rest : List Text)
      (hl : s.input = line :: rest) (hp : intLine line = none) :
      ExecShape i s (retire (.failed .inputFormatError) (takeLine rest s))
  /-- read_int before a line has come (R110) -/
  | waits (hi : i = .syscall) (hv : sint32 (s.getReg regV0) = 5) (hr : s.hasReg regV0 = true)
      (hl : s.input = []) (hs : s.status = .running) : ExecShape i s { s with status := .waitInput }
  /-- exit (R111) -/
  | exited (hi : i = .syscall) (hv : sint32 (s.getReg regV0) = 10) : ExecShape i s (retire .halted s)

/-- A meaning guarded by its name check either raises UnknownRegister or runs. -/
theorem ExecShape.of_require {i : Instr} {s t : State} {rs : List RegName} {act : Out}
    (h : requireRegs rs s act = .next t) (hact : rs.all s.hasReg = true → act = .next t → ExecShape i s t) :
    ExecShape i s t := by
  rcases requireRegs_cases rs s act with ⟨ha, he⟩ | ⟨-, he⟩
  · exact hact ha (he ▸ h)
  · rw [he] at h
    cases h
    exact .failed _ (.inl rfl)

theorem ExecShape.of_writeResult {i : Instr} {s t : State} (hm : MemOk s) {rd : RegName} {v : Int}
    (hd : i.dest? = some rd) (h : writeResult rd v s = .next t) :
    ExecShape i s t := by
  cases h
  exact .wrote s.mem s.blocks rd v hd hm fun _ _ => rfl

theorem execLw_next {rd : RegName} {off : Int} {rs : RegName} {s t : State} (hm : MemOk s)
    (h : execLw rd off rs s = .next t) : ExecShape (.lw rd off rs) s t := by
  refine .of_require h fun _ h => ?_
  by_cases hin : s.wordInside (effAddr s rs off)
  · by_cases hb : s.wordInBlock (effAddr s rs off)
    · obtain ⟨m, bl, he, hok, hv⟩ := memRead_inside hm hin hb
      rw [he] at h
      cases h
      exact .wrote m bl rd _ rfl hok hv
    · rw [memRead_straddling hm hin hb] at h
      cases h
      exact .failed _ (.inr (.inl ⟨.inr rfl, .inl ⟨_, _, _, rfl⟩⟩))
  · rw [memRead_outside hin] at h
    cases h
    exact .failed _ (.inr (.inl ⟨.inl rfl, .inl ⟨_, _, _, rfl⟩⟩))

theorem execSw_next {rs : RegName} {off : Int} {rt : RegName} {s t : State} (hm : MemOk s)
    (h : execSw rs off rt s = .next t) : ExecShape (.sw rs off rt) s t := by
  refine .of_require h fun _ h => ?_
  by_cases hin : s.wordInside (effAddr s rt off)
  · by_cases hb : s.wordInBlock (effAddr s rt off)
    · obtain ⟨m, bl, he, hok, hv⟩ := memWrite_inside hm (le32_length (s.getReg rs)) hin hb
      rw [he] at h
      cases h
      exact .stored m bl rs off rt rfl hok hin hb hv
    · rw [memWrite_straddling hm hin hb] at h
      cases h
      exact .failed _ (.inr (.inl ⟨.inr rfl, .inr ⟨_, _, _, rfl⟩⟩))
  · rw [memWrite_outside hin] at h
    cases h
    exact .failed _ (.inr (.inl ⟨.inl rfl, .inr ⟨_, _, _, rfl⟩⟩))

theorem execSyscall_next {s t : State} (h : execSyscall s = .next t) : ExecShape .syscall s t := by
  refine .of_require h fun hreg h => ?_
  split at h
  · next h1 =>
    refine .of_require h fun _ h => ?_
    cases h
    exact .printed rfl h1
  · split at h
    · next h5 =>
      unfold sysReadInt at h
      split at h
      · next hl =>
        unfold awaitLine at h
        split at h
        · next hs =>
          cases h
          exact .waits rfl h5 (by simpa using hreg) hl hs
        · cases h
      · next line rest hl =>
        split at h
        · next hp => cases h; exact .badLine rfl h5 line rest hl hp
        · next v hp => cases h; exact .readLine rfl h5 line rest hl v hp
    · split at h
      · next h10 => cases h; exact .exited rfl h10
      · cases h; exact .failed _ (.inr (.inr ⟨rfl, rfl⟩))

/-- All the next states an instruction can have. -/
theorem exec_next {i : Instr} {s t : State} (hm : MemOk s) (h : exec i s = .next t) : ExecShape i s t := by
  cases i with
  | li rd imm => exact .of_require h fun _ h => .of_writeResult hm rfl h
  | add rd rs rt => exact .of_require h fun _ h => .of_writeResult hm rfl h
  | addi rd rs imm => exact .of_require h fun _ h => .of_writeResult hm rfl h
  | move rd rs => exact .of_require h fun _ h => .of_writeResult hm rfl h
  | slt rd rs rt => exact .of_require h fun _ h => .of_writeResult hm rfl h
  | lw rd off rs => exact execLw_next hm h
  | sw rs off rt => exact execSw_next hm h
  | syscall => exact execSyscall_next h

/-- An instruction never ends in a refusal, and in a fault only inside read_int, with no line come and the wait
already shown (R110). -/
theorem exec_stops {i : Instr} {s : State} :
    (∃ t, exec i s = .next t) ∨
    (exec i s = .fault .awaitingInput ∧ i = .syscall ∧ sint32 (s.getReg regV0) = 5 ∧ s.input = [] ∧
      s.status ≠ .running) := by
  have hreq : ∀ rs (act : Out), (∃ t, act = .next t) → ∃ t, requireRegs rs s act = .next t := by
    intro rs act ⟨t, ht⟩
    rcases requireRegs_cases rs s act with ⟨-, he⟩ | ⟨-, he⟩
    · exact ⟨t, he.trans ht⟩
    · exact ⟨_, he⟩
  cases i with
  | li rd imm => exact .inl (hreq _ _ ⟨_, rfl⟩)
  | add rd rs rt => exact .inl (hreq _ _ ⟨_, rfl⟩)
  | addi rd rs imm => exact .inl (hreq _ _ ⟨_, rfl⟩)
  | move rd rs => exact .inl (hreq _ _ ⟨_, rfl⟩)
  | slt rd rs rt => exact .inl (hreq _ _ ⟨_, rfl⟩)
  | lw rd off rs => exact .inl (hreq _ _ (by split <;> exact ⟨_, rfl⟩))
  | sw rs off rt => exact .inl (hreq _ _ (by split <;> exact ⟨_, rfl⟩))
  | syscall =>
    show (∃ t, execSyscall s = .next t) ∨ (execSyscall s = _ ∧ _)
    unfold execSyscall
    rcases requireRegs_cases [regV0] s
      (if sint32 (s.getReg regV0) = 1 then sysPrint s else if sint32 (s.getReg regV0) = 5 then sysReadInt s
       else if sint32 (s.getReg regV0) = 10 then sysExit s else fail .unknownSyscall s) with ⟨-, he⟩ | ⟨-, he⟩
    · rw [he]
      split
      · exact .inl (hreq _ _ ⟨_, rfl⟩)
      · split
        · next h5 =>
          unfold sysReadInt
          split
          · next hl =>
            unfold awaitLine
            split
            · exact .inl ⟨_, rfl⟩
            · next hs => exact .inr ⟨rfl, rfl, h5, hl, hs⟩
          · split <;> exact .inl ⟨_, rfl⟩
        · split <;> exact .inl ⟨_, rfl⟩
    · exact .inl ⟨_, he⟩

/-! ## The invariant, by what changes -/

/-- The invariant is kept when registers keep their number, the memory side stays in order, and STATUS does not newly
show a wait. -/
theorem StateInv.of_changes {s t : State} (h : StateInv s) (hc : t.config = s.config) (hr : t.regs.length = s.regs.length)
    (hm : MemOk t) (hp : t.prog = s.prog) (ho : ∀ v ∈ t.out, -(2 ^ 31) ≤ v ∧ v < 2 ^ 31)
    (hw : t.status ≠ .waitInput) : StateInv t :=
  ⟨hm.configValid, by rw [hr, hc]; exact h.regsTotal, hm.memCanonical, hm.memWithin, hm.cacheOk,
    by rw [hp]; exact h.progShort, ho, fun hs => absurd hs hw⟩

theorem MemOk.congr {s t : State} (h : MemOk s) (hc : t.config = s.config) (hm : t.mem = s.mem)
    (hb : t.blocks = s.blocks) : MemOk t := by
  refine ⟨by rw [hc]; exact h.configValid, by rw [hm]; exact h.memCanonical, by rw [hm, hc]; exact h.memWithin, ?_⟩
  have := h.cacheOk
  simp only [CacheOk, hc, hm, hb] at this ⊢
  exact this

/-- The view depends on the parameters and on the memory side alone. -/
theorem view_of_same {s t : State} (hc : t.config = s.config) (hm : t.mem = s.mem) (hb : t.blocks = s.blocks) (a : Nat) :
    view t a = view s a := by simp [view, State.block, hc, hm, hb]

end Sys2Proof.Machine
end

