-- ==== Sys2Proof/Laws/Input.lean ====
section
/-! SUPPORT. The small laws of the input line's reader (spec 43_syscall.md R113). -/

namespace Sys2Proof.Machine

theorem isBlank_iff (c : Char) : isBlank c = true ↔ c = ' ' ∨ c = '\t' := by simp [isBlank]

/-- What is stripped in front is spaces and tabs. -/
theorem stripLeading_spec : ∀ t : Text, ∃ pre, t = pre ++ stripLeading t ∧ ∀ c ∈ pre, isBlank c = true
  | [] => ⟨[], rfl, by simp⟩
  | c :: t => by
    simp only [stripLeading]
    split
    · next hb =>
      obtain ⟨pre, h1, h2⟩ := stripLeading_spec t
      refine ⟨c :: pre, by rw [List.cons_append, ← h1], fun x hx => ?_⟩
      rcases List.mem_cons.1 hx with hx | hx
      · rw [hx]; exact hb
      · exact h2 x hx
    · exact ⟨[], rfl, by simp⟩

/-- Spaces and tabs in front make no difference. -/
theorem stripLeading_append : ∀ {pre : Text} (t : Text), (∀ c ∈ pre, isBlank c = true) →
    stripLeading (pre ++ t) = stripLeading t
  | [], _, _ => rfl
  | c :: pre, t, h => by
    simp only [List.cons_append, stripLeading, h c (List.mem_cons_self ..), if_true]
    exact stripLeading_append t fun x hx => h x (List.mem_cons_of_mem _ hx)

theorem stripLeading_cons {c : Char} (t : Text) (h : isBlank c = false) : stripLeading (c :: t) = c :: t := by
  simp [stripLeading, h]

/-- A line is what is left without its terminator, and one of the terminators or nothing. -/
theorem stripTerminator_spec (line : Text) : ∃ term, line = stripTerminator line ++ term ∧
    (term = [] ∨ term = ['\n'] ∨ term = ['\r', '\n']) := by
  unfold stripTerminator
  split
  · next t heq => exact ⟨['\r', '\n'], by simpa using congrArg List.reverse heq, by simp⟩
  · next t _ heq => exact ⟨['\n'], by simpa using congrArg List.reverse heq, by simp⟩
  · exact ⟨[], by simp, by simp⟩

end Sys2Proof.Machine
end

