-- ==== Sys2Proof/Laws/PerInstr.lean ====
section
/-! SUPPORT. The family of statements made per instruction: the record the encoder writes is of the instruction's own
row of the opcode map (spec 30_encoding.md R74), with that row's operand count, and its operation code is the one of the
decoded form (R79). -/

namespace Sys2Proof.Laws.Row

def Statement (i : Instr) : Prop :=
  Op.ofMnemonic (encode i).mnemonic = some i.op ∧ (encode i).operands.length = i.op.shape.length ∧
  i.decoded.op = i.op.code

theorem li (rd : RegName) (imm : Int) : Statement (.li rd imm) := ⟨by simp [encode], rfl, rfl⟩
theorem add (rd rs rt : RegName) : Statement (.add rd rs rt) := ⟨by simp [encode], rfl, rfl⟩
theorem addi (rd rs : RegName) (imm : Int) : Statement (.addi rd rs imm) := ⟨by simp [encode], rfl, rfl⟩
theorem move (rd rs : RegName) : Statement (.move rd rs) := ⟨by simp [encode], rfl, rfl⟩
theorem slt (rd rs rt : RegName) : Statement (.slt rd rs rt) := ⟨by simp [encode], rfl, rfl⟩
theorem lw (rd : RegName) (offset : Int) (rs : RegName) : Statement (.lw rd offset rs) := ⟨by simp [encode], rfl, rfl⟩
theorem sw (rs : RegName) (offset : Int) (rt : RegName) : Statement (.sw rs offset rt) := ⟨by simp [encode], rfl, rfl⟩
theorem syscall : Statement .syscall := ⟨by simp [encode], rfl, rfl⟩

end Sys2Proof.Laws.Row
end

