-- ==== Sys2Proof/Laws/Step.lean ====
section
/-! SUPPORT. What a step can do, said once (spec 40_engine.md R87 to R89, R96, R98). -/

namespace Sys2Proof.Machine

/-- What executing a record can end in: the failure entry of a decode error, or an end of the decoded instruction. -/
inductive ExecuteShape (r : Rec) (s : State) : State → Prop where
  | decodeError (k : ErrorKind) (hd : decode s.config.regNames r = .error k) :
      ExecuteShape r s (retire (.failed k) s)
  | executed (i : Instr) (hd : decode s.config.regNames r = .ok i) (t : State) (he : exec i s = .next t)
      (hs : ExecShape i s t) : ExecuteShape r s t

theorem execute_next {r : Rec} {s t : State} (hm : MemOk s) (h : execute r s = .next t) : ExecuteShape r s t := by
  unfold execute at h
  split at h
  · next k hd => cases h; exact .decodeError k hd
  · next i hd => exact .executed i hd t h (exec_next hm h)

/-- The next states of a step. -/
inductive StepShape (s : State) : State → Prop where
  /-- the end of the sequence (R88) -/
  | ranOff (hr : s.inRun = true) (hf : fetch s = none) : StepShape s { s with status := .ranOffEnd }
  /-- an iteration of the run loop (R87, R89) -/
  | ran (hr : s.inRun = true) (r : Rec) (hf : fetch s = some r) (t : State) (h : ExecuteShape r s t) : StepShape s t
  /-- `start` (R87, R98) -/
  | started (hr : s.inRun = false) (p : List Rec) (rest : List HostCall) (hc : s.calls = .start p :: rest)
      (hs : s.status = .ready) (hp : p.length ≤ maxProgLength) :
      StepShape s { s with calls := rest, prog := p, status := .running }
  /-- `executeSingle` (R96) -/
  | single (hr : s.inRun = false) (r : Rec) (rest : List HostCall) (hc : s.calls = .executeSingle r :: rest)
      (t : State) (h : ExecuteShape r { s with calls := rest } t) : StepShape s t

theorem step_next {s t : State} (hm : MemOk s) (h : step s = .next t) : StepShape s t := by
  unfold step at h
  split at h
  · next hr =>
    unfold runLoop at h
    split at h
    · next hf => cases h; exact .ranOff hr hf
    · next r hf => exact .ran hr r hf t (execute_next hm h)
  · next hr =>
    have hr' : s.inRun = false := by simpa using hr
    unfold serveCall at h
    split at h
    · cases h
    · next p rest hc =>
      unfold start at h
      split at h
      · next hs =>
        split at h
        · next hp => cases h; exact .started hr' p rest hc hs hp
        · cases h
      · cases h
    · next r rest hc =>
      unfold executeSingle at h
      split at h
      · cases h
      · exact .single hr' r rest hc t (execute_next (hm.congr rfl rfl rfl) h)

/-- A record is fetched only from a slot of PROG (R88). -/
theorem fetch_some {s : State} {r : Rec} (h : fetch s = some r) : s.pc.toNat < s.prog.length :=
  (List.getElem?_eq_some_iff.1 h).1

/-- With L <= 2^32 - 1 the advance of pc from a slot of PROG does not wrap (R34). -/
theorem pc_succ {s : State} (h : StateInv s) (hlt : s.pc.toNat < s.prog.length) :
    (s.pc + 1).toNat = s.pc.toNat + 1 := by
  have := h.progShort
  simp only [maxProgLength] at this
  rw [BitVec.toNat_add, show (1 : Word).toNat = 1 from rfl]
  omega

end Sys2Proof.Machine
end

