-- ==== Sys2Proof/Tests/Slice0.lean ====
section
/-! SUPPORT. The model's own tests. Expected results are the spec's: 95_test_vectors.md, by the vector named in each
comment, or the worked example of the rule named there. The witnesses at the end show that the hypotheses of each
statement can be met together. -/

namespace Sys2Proof.Tests
open Sys2Proof.Machine

/-! ## Small states -/

def t0 : RegName := "t0".toList
def t1 : RegName := "t1".toList
def t2 : RegName := "t2".toList
def sp : RegName := "sp".toList

/-- CFG-A, CFG-N and CFG-B of 95_test_vectors.md section 0. -/
def cfgA : Config := defaultConfig
def cfgN : Config := { defaultConfig with cache := none }
def cfgB : Config := { defaultConfig with cache := some { cacheBytes := 8, blockBytes := 4 } }

/-- A block in a run, with some registers set. -/
def running (c : Config) (mem : Memory) (rs : List (RegName × Int)) : State :=
  rs.foldl (fun s p => s.setReg p.1 p.2) { State.construct c mem with status := .running }

def stateOf : Out → Option State
  | .next t => some t
  | .fault _ | .refused _ => none

def regAfter (r : RegName) (o : Out) : Option Word := (stateOf o).bind fun t => t.readReg r
def pcAfter (o : Out) : Option Word := (stateOf o).map State.pc
def statusAfter (o : Out) : Option Status := (stateOf o).map State.status

/-! ## WellFormed smoke: one ill-formed term for each check -/

theorem test_wf_rd : (Instr.li "zero".toList 1).wellFormed defaultRegNames = false := by decide
theorem test_wf_rs : (Instr.add t0 "q1".toList t0).wellFormed defaultRegNames = false := by decide
theorem test_wf_rt : (Instr.slt t0 t0 "T0".toList).wellFormed defaultRegNames = false := by decide
theorem test_wf_base : (Instr.lw t0 0 "$sp".toList).wellFormed defaultRegNames = false := by decide
theorem test_wf_base_paren : (Instr.sw t0 0 "(".toList).wellFormed (t0 :: ["(".toList]) = false := by decide
theorem test_wf_ok : (Instr.sw t0 (-4) sp).wellFormed defaultRegNames = true := by decide

/-! ## Decode -/

def dec (m : String) (os : List String) : Except ErrorKind Instr :=
  decode defaultRegNames ⟨m.toList, os.map String.toList⟩

/-- T-DEC-2 -/
theorem test_decode_li : dec "li" ["$t0", "42"] = .ok (.li t0 42) := by rfl
/-- T-DEC-33 -/
theorem test_decode_li_wide : dec "li" ["t0", "99999999999"] = .ok (.li t0 99999999999) := by rfl
/-- T-DEC-5 -/
theorem test_decode_add : dec "add" ["t0", "t1", "t2"] = .ok (.add t0 t1 t2) := by rfl
/-- T-DEC-6 -/
theorem test_decode_addi : dec "addi" ["t0", "t1", "-5"] = .ok (.addi t0 t1 (-5)) := by rfl
/-- T-DEC-7 -/
theorem test_decode_move : dec "move" ["a0", "v0"] = .ok (.move regA0 regV0) := by rfl
/-- T-DEC-8 -/
theorem test_decode_slt : dec "slt" ["t1", "t0", "a0"] = .ok (.slt t1 t0 regA0) := by rfl
/-- T-DEC-9 -/
theorem test_decode_lw : dec "lw" ["t1", "0($sp)"] = .ok (.lw t1 0 sp) := by rfl
/-- T-DEC-10 -/
theorem test_decode_sw : dec "sw" ["t0", "-4(sp)"] = .ok (.sw t0 (-4) sp) := by rfl
/-- T-DEC-11 -/
theorem test_decode_syscall : dec "syscall" [] = .ok .syscall := by rfl
/-- T-DEC-12, T-DEC-15, T-DEC-18, T-DEC-19, T-DEC-21, T-DEC-22 -/
theorem test_decode_invalid :
    dec "LI" ["t0", "1"] = .error .invalidInstruction ∧ dec "li" ["t0"] = .error .invalidInstruction ∧
    dec "li" ["t0", "0x10"] = .error .invalidInstruction ∧ dec "li" ["t0", " 5"] = .error .invalidInstruction ∧
    dec "lw" ["t0", "($sp)"] = .error .invalidInstruction ∧ dec "lw" ["t0", "0($sp"] = .error .invalidInstruction := by
  refine ⟨?_, ?_, ?_, ?_, ?_, ?_⟩ <;> rfl
/-- T-DEC-23, T-DEC-25, T-DEC-26, T-DEC-27 -/
theorem test_decode_unknown :
    dec "lw" ["t0", "0( sp)"] = .error .unknownRegister ∧ dec "li" ["zero", "1"] = .error .unknownRegister ∧
    dec "li" ["$$t0", "1"] = .error .unknownRegister ∧ dec "add" ["t0", "t1", "5"] = .error .unknownRegister := by
  refine ⟨?_, ?_, ?_, ?_⟩ <;> rfl
/-- T-DEC-29, T-DEC-32: syntax before names, the mnemonic first -/
theorem test_decode_order :
    dec "addi" ["bad", "t0", "xyz"] = .error .invalidInstruction ∧
    dec "nop" ["bad"] = .error .invalidInstruction := by
  refine ⟨?_, ?_⟩ <;> rfl

/-- The bytes "li t0, 42", first character lowest (log entry 4). -/
def wordLi : Nat := 0x3234202c307420696c

theorem test_decode_word : decodeTableWord 72 wordLi = some (.li t0 42) := by decide

/-! ## ALU -/

/-- T-ALU-2, T-ALU-3 -/
theorem test_li : regAfter t0 (exec (.li t0 (-1)) (running cfgA [] [])) = some 0xFFFFFFFF ∧
    regAfter t0 (exec (.li t0 4294967296) (running cfgA [] [])) = some 0 := by decide
/-- T-ALU-5, T-ALU-8 -/
theorem test_add : regAfter t0 (exec (.add t0 t1 t2) (running cfgA [] [(t1, 0x7FFFFFFF), (t2, 1)])) = some 0x80000000 ∧
    regAfter t0 (exec (.add t0 t0 t0) (running cfgA [] [(t0, 3)])) = some 6 := by decide
/-- T-ALU-11, T-ALU-12 -/
theorem test_addi : regAfter t0 (exec (.addi t0 t0 4294967295) (running cfgA [] [(t0, 5)])) = some 4 ∧
    regAfter t0 (exec (.addi t0 t0 (-2147483649)) (running cfgA [] [])) = some 0x7FFFFFFF := by decide
/-- T-ALU-13 -/
theorem test_move : regAfter regA0 (exec (.move regA0 regV0) (running cfgA [] [(regV0, 0xFFFFFFFD)])) =
    some 0xFFFFFFFD := by decide
/-- T-ALU-16, T-ALU-18 -/
theorem test_slt : regAfter t0 (exec (.slt t0 t1 t2) (running cfgA [] [(t1, 0xFFFFFFFF)])) = some 1 ∧
    regAfter t0 (exec (.slt t0 t1 t2) (running cfgA [] [(t2, 0x80000000)])) = some 0 := by decide

/-! ## Load and store -/

/-- T-LS-11 (CFG-N, unaligned) and T-LS-6 -/
theorem test_lw : regAfter t1 (exec (.lw t1 6 sp)
      (running cfgN [(6, 0x11), (7, 0x22), (8, 0x33), (9, 0x44)] [])) = some 0x44332211 ∧
    statusAfter (exec (.lw t1 (-1) sp) (running cfgN [] [])) = some (.failed .outOfBounds) := by decide
/-- T-CA-3: a read miss writes the dirty occupant back -/
def dirtyA : State :=
  { running cfgA [(4, 0x55), (5, 0x66)] [(t0, 16)] with
    blocks := [⟨true, true, 0, [0xAA, 0xBB, 0xCC, 0xDD, 0x55, 0x66, 0, 0]⟩, Block.invalid 8] }
theorem test_lw_evicts : (stateOf (exec (.lw t1 0 t0) dirtyA)).map (fun t => (t.blocks[0]?, t.mem)) =
    some (some ⟨true, false, 1, [0, 0, 0, 0, 0, 0, 0, 0]⟩,
      [(0, 0xAA), (1, 0xBB), (2, 0xCC), (3, 0xDD), (4, 0x55), (5, 0x66)]) := by decide
/-- T-CA-5: a write miss allocates; Main Memory is untouched -/
theorem test_sw : (stateOf (exec (.sw t0 8 sp) (running cfgA [] [(t0, 0x04030201)]))).map
      (fun t => (t.blocks[1]?, t.mem)) = some (some ⟨true, true, 0, [1, 2, 3, 4, 0, 0, 0, 0]⟩, []) := by decide
/-- P4 at pc 1, T-CA-10: a straddling store, and one that is out of bounds as well -/
theorem test_sw_fails :
    statusAfter (exec (.sw t0 6 sp) (running cfgA [] [])) = some (.failed .straddlingAccessUnsupported) ∧
    statusAfter (exec (.sw t0 62 sp) (running cfgA [] [])) = some (.failed .outOfBounds) := by decide

/-- T-DCP-8, T-DCP-10 -/
theorem test_decompose : decompose 32 { cacheBytes := 16, blockBytes := 8 } 60 = ⟨3, 1, 4⟩ ∧
    decompose 32 { cacheBytes := 8, blockBytes := 4 } 6 = ⟨0, 1, 2⟩ := by decide

/-! ## The system call -/

/-- T-SYS-1 -/
theorem test_syscall_print : (stateOf (exec .syscall (running cfgA [] [(regV0, 1), (regA0, 0xFFFFFFFD)]))).map State.out =
    some [-3] := by decide
/-- T-SYS-5 -/
theorem test_syscall_read :
    regAfter regV0 (exec .syscall { running cfgA [] [(regV0, 5)] with input := [" \t-17 \r\n".toList] }) =
      some 0xFFFFFFEF := by decide
/-- T-SYS-8 -/
theorem test_intLine : intLine "abc\n".toList = none ∧ intLine "\n".toList = none ∧ intLine "0x10".toList = none ∧
    intLine "1.5".toList = none ∧ intLine "1 2".toList = none ∧ intLine "+8".toList = some 8 := by decide
/-- T-SYS-11, T-SYS-9 -/
theorem test_syscall_ends :
    statusAfter (exec .syscall (running cfgA [] [(regV0, 0x0001000A)])) = some (.failed .unknownSyscall) ∧
    statusAfter (exec .syscall (running cfgA [] [(regV0, 10)])) = some .exited := by decide

/-! ## Engine, reset and construction -/

/-- T-ENG-1: the empty sequence -/
theorem test_run_off_end : statusAfter (step (running cfgA [] [])) = some .ranOffEnd ∧
    pcAfter (step (running cfgA [] [])) = some 0 := by decide
/-- T-ENG-8: executeSingle touches neither pc nor STATUS -/
theorem test_executeSingle :
    (stateOf (step { State.reset with calls := [.executeSingle ⟨"li".toList, ["t0".toList, "3".toList]⟩] })).map
      (fun t => (t.readReg t0, t.pc, t.status, t.singleResult)) = some (some 3, 0, .ready, some .continued) := by decide
/-- the host's word runs as the first instruction -/
theorem test_withFetchWord : regAfter t0 (step (State.reset.withFetchWord 72 wordLi)) = some 42 ∧
    pcAfter (step (State.reset.withFetchWord 72 wordLi)) = some 1 := by decide
/-- T-RST-2 to T-RST-9 -/
theorem test_valid :
    cfgA.valid ∧ cfgN.valid ∧ cfgB.valid ∧ ¬ { cfgA with cache := some ⟨16, 2⟩ }.valid ∧
    ¬ { cfgA with cache := some ⟨12, 4⟩ }.valid ∧ ¬ { cfgA with memBytes := 60 }.valid ∧
    { cfgN with memBytes := 60 }.valid ∧ ¬ { cfgN with memBytes := 2 }.valid ∧
    ¬ { cfgA with cache := some ⟨4, 8⟩ }.valid ∧ { cfgA with cache := some ⟨8, 8⟩ }.valid := by decide
/-- STATUS of T-ENG-5: STATE 5, ERR 4 -/
theorem test_status : statusWord (.failed .unknownSyscall) = 37 := by decide

/-! ## Witnesses: the hypotheses of the statements, met together -/

/-- A block over CFG-A, its memory and OUT empty, with the given rest, meets the invariant. -/
theorem inv_cfgA (regs : List Word) (pc : Word) (st : Status) (blocks : List Block) (prog : List Rec)
    (input : List Text) (calls : List HostCall) (res : Option Result) (hr : regs.length = 31) (hb : blocks.length = 2)
    (hk : ∀ i b, blocks[i]? = some b → BlockOk cfgA { cacheBytes := 16, blockBytes := 8 } [] i b)
    (hp : prog.length ≤ maxProgLength) (hs : st ≠ .waitInput) :
    StateInv ⟨cfgA, regs, pc, st, [], [], blocks, prog, input, calls, res⟩ :=
  ⟨by show cfgA.valid = true; decide, hr, rfl, rfl, ⟨hb, hk⟩, hp, by simp, fun h => absurd h hs⟩

/-- The blocks of the witnesses: slot 0 dirty with tag 1 (addresses 16 to 23), slot 1 clean with tag 3 (56 to 63). -/
def witBlocks : List Block := [⟨true, true, 1, [1, 2, 3, 4, 5, 6, 7, 8]⟩, ⟨true, false, 3, [0, 0, 0, 0, 0, 0, 0, 0]⟩]

theorem witBlocks_ok : ∀ i b, witBlocks[i]? = some b → BlockOk cfgA { cacheBytes := 16, blockBytes := 8 } [] i b := by
  intro i b hb
  rcases i with _ | _ | i
  · cases hb; exact ⟨rfl, by decide, fun _ => rfl, fun _ => by decide, fun _ h => by cases h⟩
  · cases hb; exact ⟨rfl, by decide, fun _ => rfl, fun _ => by decide, fun _ _ => by decide⟩
  · cases hb

def recLi : Rec := ⟨"li".toList, ["t0".toList, "1".toList]⟩
def recBad : Rec := ⟨"bogus".toList, []⟩

/-- The registers of the witnesses: v0, a0, t0, t1 given, the rest 0. -/
def witRegs (v0 a0 x y : Word) : List Word :=
  [0, v0, 0, a0, 0, 0, 0, x, y] ++ List.replicate 22 0

/-- A state in a run, or not, over CFG-A with the blocks above. -/
def wit (st : Status) (v0 a0 x : Word) (prog : List Rec) (input : List Text) (calls : List HostCall) : State :=
  ⟨cfgA, witRegs v0 a0 x 7, 0, st, [], [], witBlocks, prog, input, calls, none⟩

theorem wit_inv {st : Status} {v0 a0 x : Word} {prog : List Rec} {input : List Text} {calls : List HostCall}
    (hp : prog.length ≤ 3) (hs : st ≠ .waitInput) : StateInv (wit st v0 a0 x prog input calls) :=
  inv_cfgA _ _ _ _ _ _ _ _ rfl rfl witBlocks_ok (Nat.le_trans hp (by decide)) hs

/-- The same block without its Cache, in a run of one record, its memory the coherent view of `wit`. -/
def witN (st : Status) (v0 a0 x : Word) (prog : List Rec) (input : List Text) (calls : List HostCall) : State :=
  ⟨cfgN, witRegs v0 a0 x 7, 0, st, [], [(16, 1), (17, 2), (18, 3), (19, 4), (20, 5), (21, 6), (22, 7), (23, 8)], [],
    prog, input, calls, none⟩

def w0 : State := wit .running 1 9 56 [recLi] [] []

theorem witness_inv : StateInv w0 := wit_inv (by decide) (by decide)
theorem witness_total : w0.regs.length = w0.config.regNames.length ∧ t0 ∈ w0.config.regNames := ⟨rfl, by decide⟩

theorem witness_DecodeEncode : (Instr.sw t0 (-4) sp).wellFormed defaultRegNames = true := by decide
theorem witness_DecodeYieldsWellFormed : decode defaultRegNames recLi = .ok (.li t0 1) := by rfl
theorem witness_UnknownMnemonic : "nop".toList ∉ ["li".toList, "add".toList, "addi".toList, "move".toList,
    "slt".toList, "lw".toList, "sw".toList, "syscall".toList] := by decide
theorem witness_DollarIsOptional : Op.li.shape[0]? = some .reg ∧ ["t0".toList, "1".toList][0]? = some t0 ∧
    t0.head? ≠ some '$' := by decide
theorem witness_FetchWordRuns : State.reset.config.regNames = defaultRegNames ∧
    decodeTableWord 72 wordLi = some (.li t0 42) := by decide
theorem witness_ResetRegistersZero : sp ∈ cfgN.regNames := by decide
theorem witness_ConstructionValidates : cfgA.valid = true ∧ { cfgA with memBytes := 60 }.valid = false := by decide
theorem witness_ConstructInv : ∃ s, constructChecked cfgA [(63, 1)] = .next s := ⟨_, rfl⟩
theorem witness_ReachableInv : ∃ s t, constructChecked cfgA [] = .next s ∧
    Host.Core.run Sys2Proof.core 2 { s with calls := [.start [recLi]], input := [] } = .next t := ⟨_, _, rfl, rfl⟩

theorem witness_AddResult : w0.readReg t0 = some 56 ∧ w0.readReg t1 = some 7 := by decide
theorem witness_AluOutsideRun : (Instr.li t0 1).wellFormed cfgA.regNames = true ∧
    (Instr.li t0 1).dest? ≠ none ∧ (Instr.li t0 1).base? = none ∧ (wit .exited 0 0 0 [] [] []).inRun = false ∧
    (wit .exited 0 0 0 [] [] []).regs.length = cfgA.regNames.length := by decide
/-- the last word of memory, which ends its block: the two range conditions at their upper bounds -/
theorem witness_LwSwResult : w0.wordInside (effAddr w0 t0 4) ∧ w0.wordInBlock (effAddr w0 t0 4) ∧
    w0.readReg t1 = some 7 := by
  refine ⟨by unfold State.wordInside; decide, fun g hg => ?_, by decide⟩
  cases hg; decide
/-- one past either end -/
theorem witness_OutOfBounds : effAddr w0 t0 (-57) < 0 ∧ effAddr w0 t0 5 + 4 > w0.config.memBytes := by decide
/-- the first offset that straddles -/
theorem witness_Straddling : w0.config.cache = some { cacheBytes := 16, blockBytes := 8 } ∧
    w0.wordInside (effAddr w0 sp 5) ∧ (effAddr w0 sp 5).toNat % 8 + 4 > 8 := by
  refine ⟨rfl, by unfold State.wordInside; decide, by decide⟩

theorem witness_SyscallPrint : w0.readReg regV0 = some 1 ∧ w0.readReg regA0 = some 9 := by decide
theorem witness_SyscallReadInt : (wit .running 5 0 0 [] ["42".toList] []).readReg regV0 = some 5 ∧
    (wit .running 5 0 0 [] ["42".toList] []).inRun = true ∧ (wit .ready 5 0 0 [] ["42".toList] []).inRun = false ∧
    intLine "42".toList = some 42 ∧ intLine "abc".toList = none := by decide
theorem witness_SyscallWaits : (wit .running 5 0 0 [] [] []).readReg regV0 = some 5 ∧
    (wit .running 5 0 0 [] [] []).input = [] ∧ (wit .waitInput 5 0 0 [] [] []).status ≠ .running := by decide
theorem witness_SyscallExit : (wit .running 10 0 0 [] [] []).readReg regV0 = some 10 := by decide
theorem witness_SyscallUnknown : (wit .running 11 0 0 [] [] []).readReg regV0 = some 11 ∧
    (11 : Word) ≠ 1 ∧ (11 : Word) ≠ 5 ∧ (11 : Word) ≠ 10 := by decide

theorem witness_StepRunsDecoded : w0.inRun = true ∧ w0.prog[w0.pc.toNat]? = some recLi ∧
    decode w0.config.regNames recLi = .ok (.li t0 1) ∧
    decode w0.config.regNames recBad = .error .invalidInstruction := ⟨rfl, rfl, rfl, rfl⟩
theorem witness_StepRunsOffEnd : (wit .running 0 0 0 [] [] []).inRun = true ∧
    (wit .running 0 0 0 [] [] []).prog.length ≤ (wit .running 0 0 0 [] [] []).pc.toNat := by decide
/-- each clause of StepServesCalls; the longest program accepted and the shortest refused -/
theorem witness_StepServesCalls : (wit .ready 0 0 0 [] [] [.start [recLi]]).inRun = false ∧
    (List.replicate (2 ^ 32 - 1) recLi).length ≤ 2 ^ 32 - 1 ∧ (List.replicate (2 ^ 32) recLi).length > 2 ^ 32 - 1 ∧
    (wit .exited 0 0 0 [] [] [.start [recLi]]).status ≠ .ready ∧
    (wit .exited 0 0 0 [] [] [.executeSingle recLi]).calls = .executeSingle recLi :: [] ∧
    (wit .exited 0 0 0 [] [] []).calls = [] := by
  refine ⟨rfl, ?_, ?_, by decide, rfl, rfl⟩ <;> rw [List.length_replicate] <;> decide
theorem witness_Single : StateInv (wit .ready 0 0 0 [] [] []) ∧ (wit .ready 0 0 0 [] [] []).inRun = false ∧
    ∃ t, executeSingle recLi (wit .ready 0 0 0 [] [] []) = .next t :=
  ⟨wit_inv (by decide) (by decide), rfl, _, rfl⟩
/-- StepKeepsInv, PcMovesByOne, RunEnds, and a next state of `exec` that is neither a wait nor a failure -/
theorem witness_step : (∃ t, step w0 = .next t) ∧ w0.inRun = true ∧ w0.status = .running ∧
    ∃ t, exec (.li t0 1) w0 = .next t ∧ t.status ≠ .waitInput ∧ t.readReg t0 ≠ w0.readReg t0 :=
  ⟨⟨_, rfl⟩, rfl, rfl, _, rfl, by decide, by decide⟩
theorem witness_EndedStaysEnded : StateInv (wit .exited 0 0 0 [] [] [.executeSingle recLi]) ∧
    (wit .exited 0 0 0 [] [] [.executeSingle recLi]).ended = true ∧
    ∃ t, step (wit .exited 0 0 0 [] [] [.executeSingle recLi]) = .next t :=
  ⟨wit_inv (by decide) (by decide), rfl, _, rfl⟩
/-- FailureIsAtomic, with the consumed line, and ErrorsByInstruction -/
theorem witness_Failure : StateInv (wit .running 5 0 0 [⟨"syscall".toList, []⟩] ["abc".toList] []) ∧
    Instr.syscall.wellFormed cfgA.regNames = true ∧
    ∃ t, step (wit .running 5 0 0 [⟨"syscall".toList, []⟩] ["abc".toList] []) = .next t ∧
      t.status = .failed .inputFormatError :=
  ⟨wit_inv (by decide) (by decide), rfl, _, rfl, by decide⟩
theorem witness_ErrorsByInstruction : (Instr.lw t0 5 sp).wellFormed w0.config.regNames = true ∧
    ∃ t, exec (.lw t0 5 sp) w0 = .next t ∧ t.status = .failed .straddlingAccessUnsupported :=
  ⟨by decide, _, rfl, by decide⟩
theorem witness_MemoryIsCanonical : Memory.wf [(3, 1), (63, 255)] = true := by decide
theorem witness_Decompose : cfgA.cache = some { cacheBytes := 16, blockBytes := 8 } ∧ 2 ^ 32 - 1 < 2 ^ cfgA.addrBits :=
  ⟨rfl, by decide⟩
/-- CacheReadHitAndMiss and CacheWriteHitAndMiss: the first address that straddles -/
theorem witness_CacheStraddles : w0.wordInside (5 : Nat) ∧ ¬ w0.wordInBlock (5 : Nat) := by
  refine ⟨by unfold State.wordInside; decide, fun h => ?_⟩
  exact absurd (h { cacheBytes := 16, blockBytes := 8 } rfl) (by decide)

/-- and a hit at 60, a miss on a dirty victim at 0 -/
theorem witness_Cache : w0.wordInside (60 : Nat) ∧ w0.wordInBlock (60 : Nat) ∧ w0.wordInside (0 : Nat) ∧
    w0.wordInBlock (0 : Nat) ∧
    ((w0.block (decompose 32 { cacheBytes := 16, blockBytes := 8 } 60).index).valid = true ∧
      (w0.block (decompose 32 { cacheBytes := 16, blockBytes := 8 } 60).index).tag =
        (decompose 32 { cacheBytes := 16, blockBytes := 8 } 60).tag) ∧
    ¬ ((w0.block (decompose 32 { cacheBytes := 16, blockBytes := 8 } 0).index).valid = true ∧
      (w0.block (decompose 32 { cacheBytes := 16, blockBytes := 8 } 0).index).tag =
        (decompose 32 { cacheBytes := 16, blockBytes := 8 } 0).tag) := by
  refine ⟨by unfold State.wordInside; decide, fun g hg => ?_, by unfold State.wordInside; decide, fun g hg => ?_,
    by decide, by decide⟩ <;> cases hg <;> decide
theorem witness_ReadAfterWrite : (∃ t, memWrite w0 0 (le32 7) = .ok t) ∧ ∃ b t, memRead w0 0 = .ok (b, t) :=
  ⟨⟨_, rfl⟩, _, _, rfl⟩
theorem witness_CacheIsTransparent : StateInv (witN .running 1 9 56 [recLi] [] []) ∧
    Uncached w0 (witN .running 1 9 56 [recLi] [] []) ∧
    (∀ i, stepInstr w0 = some i → ¬ straddlesIn w0 i) ∧ ∃ t, step w0 = .next t := by
  refine ⟨⟨by decide, rfl, by decide, by decide, rfl, by decide, by simp [witN], fun h => by cases h⟩,
    ⟨rfl, rfl, rfl, rfl, rfl, rfl, rfl, rfl, rfl, ?_⟩, fun i hi => ?_, _, rfl⟩
  · exact (by decide : ∀ a, a < 64 → (witN .running 1 9 56 [recLi] [] []).mem.read a = view w0 a)
  · have : stepInstr w0 = some (.li t0 1) := by rfl
    rw [this] at hi
    cases hi
    exact id

end Sys2Proof.Tests
end

section
/-! PROOFS. The launch inputs across execution (spec 00_scope.md R18): the sequence is fetched and never written. -/

namespace Sys2Proof.Machine

/-- No end of an instruction writes the configuration, PROG or the host's calls. -/
theorem ExecShape.sameLaunch {i : Instr} {s t : State} (h : ExecShape i s t) : SameLaunch s t := by
  cases h with
  | waits => exact ⟨rfl, rfl, rfl⟩
  | failed | wrote | stored | printed | readLine | badLine | exited =>
    exact ⟨retire_config .., retire_prog .., retire_calls ..⟩

/-- Nor does the execution of a record, a decode error included. -/
theorem ExecuteShape.sameLaunch {r : Rec} {s t : State} (h : ExecuteShape r s t) : SameLaunch s t := by
  cases h with
  | decodeError => exact ⟨retire_config .., retire_prog .., retire_calls ..⟩
  | executed _ _ _ _ hs => exact hs.sameLaunch

/-- Nor does a step of a run; a step outside one may, in `start`. -/
theorem StepShape.sameLaunch {s t : State} (hr : s.inRun = true) (h : StepShape s t) : SameLaunch s t := by
  cases h with
  | ranOff => exact ⟨rfl, rfl, rfl⟩
  | ran _ _ _ _ hx => exact hx.sameLaunch
  | started hn | single hn => exact absurd hr (by simp [hn])

/-- An accepted `executeSingle` is the execution of its record, with no run active (R96). -/
theorem executeSingle_next {r : Rec} {s t : State} (hm : MemOk s) (h : executeSingle r s = .next t) :
    s.inRun = false ∧ ExecuteShape r s t := by
  unfold executeSingle at h
  split at h
  · cases h
  · next hr => exact ⟨by simpa using hr, execute_next hm h⟩

/-- The record at a pc below L (R18). -/
theorem fetch_of_lt {s : State} (h : s.pc.toNat < s.prog.length) : fetch s = some s.prog[s.pc.toNat] :=
  List.getElem?_eq_getElem h

/-- No record at or past the end of the sequence (R18, R88). -/
theorem fetch_of_le {s : State} (h : s.prog.length ≤ s.pc.toNat) : fetch s = none := List.getElem?_eq_none h

/-- Settles O37: the fetch is the list lookup, and what a step or an `executeSingle` can end in never writes PROG. -/
theorem fetchReadsProg : Obligations.FetchReadsProg := by
  refine ⟨fun s => ⟨fetch_of_lt, fetch_of_le⟩, fun s t hi hr hs => ?_, fun s t r hi hs => ?_⟩
  · obtain ⟨-, hprog, -⟩ := (step_next hi.memOk hs).sameLaunch hr
    exact hprog
  · obtain ⟨-, hx⟩ := executeSingle_next hi.memOk hs
    obtain ⟨-, hprog, -⟩ := hx.sameLaunch
    exact hprog

end Sys2Proof.Machine
end

section
/-! PROOFS. The architectural state (spec 10_state.md): the registers at reset (R28), who writes OUT (R37) and a register
(R29), the canonical form of Main Memory's contents (R38), and the fields of STATUS (R35). -/

namespace Sys2Proof

/-- The error codes are 1 to 6 (R114). -/
theorem ErrorKind.code_range (k : ErrorKind) : 1 ≤ k.code ∧ k.code ≤ 6 := by cases k <;> decide

end Sys2Proof

namespace Sys2Proof.Machine

/-! ## The registers at reset -/

/-- In a file that holds one word throughout, every name reads as that word. -/
theorem lookupReg_replicate (w : Word) : ∀ {ns : List RegName} {r : RegName}, r ∈ ns →
    lookupReg ns (List.replicate ns.length w) r = some w
  | n :: ns, r, h => by
    simp only [List.length_cons, List.replicate_succ, lookupReg]
    split
    · rfl
    · next hn => exact lookupReg_replicate w (List.mem_of_ne_of_mem (Ne.symm hn) h)

/-- Settles O10: construction fills REGS with 0, one word per name. -/
theorem resetRegistersZero : Obligations.ResetRegistersZero := fun _ _ _ hr => lookupReg_replicate 0 hr

/-! ## Who writes OUT -/

/-- The signed reading of a word is in the 32-bit signed range (R14). -/
theorem sint32_range (w : Word) : -(2 ^ 31) ≤ sint32 w ∧ sint32 w < 2 ^ 31 :=
  ⟨BitVec.le_toInt w, BitVec.toInt_lt⟩

/-- A register whose signed reading is not 0 is one the file holds: a name outside it reads as 0. -/
theorem readReg_of_sint32_getReg {s : State} {r : RegName} {v : Int} (hv : sint32 (s.getReg r) = v) (h0 : v ≠ 0) :
    s.readReg r = some (trunc32 v) := by
  subst hv
  cases hr : s.readReg r with
  | none => exact absurd (by simp [State.getReg, hr, sint32]) h0
  | some w => rw [getReg_of_readReg hr, trunc32_sint32]

@[simp] theorem State.withMemory_out (s : State) (m : Memory) (bl : List Block) : (s.withMemory m bl).out = s.out := rfl

@[simp] theorem State.withMemory_readReg (s : State) (m : Memory) (bl : List Block) (r : RegName) :
    (s.withMemory m bl).readReg r = s.readReg r := rfl

/-- What an instruction does to OUT: nothing, or the print of `syscall` with v0 = 1 (R37, R109). -/
theorem ExecShape.out_cases {i : Instr} {s t : State} (h : ExecShape i s t) :
    t.out = s.out ∨
    (i = .syscall ∧ s.readReg regV0 = some 1 ∧ t.out = s.out ++ [sint32 (s.getReg regA0)]) := by
  cases h with
  | printed hi hv => exact .inr ⟨hi, readReg_of_sint32_getReg hv (by decide), retire_out ..⟩
  | waits => exact .inl rfl
  | failed | wrote | stored | readLine | badLine | exited => exact .inl (by simp)

/-- Settles O44: the one integer appended is a word's signed reading. -/
theorem onlyPrintWritesOut : Obligations.OnlyPrintWritesOut := by
  intro s t i hs he
  obtain h | ⟨hi, hv, ho⟩ := (exec_next hs.memOk he).out_cases
  · exact .inl h
  · obtain ⟨hlo, hhi⟩ := sint32_range (s.getReg regA0)
    exact .inr ⟨hi, hv, _, hlo, hhi, ho⟩

/-! ## Who writes a register -/

/-- A register that reads otherwise after a write is the one written (R26). -/
theorem State.eq_of_readReg_setReg_ne {s : State} {r rd : RegName} {v : Int}
    (h : (s.setReg rd v).readReg r ≠ s.readReg r) : r = rd :=
  Decidable.by_contra fun hne => h (State.readReg_setReg_ne v hne)

/-- A register that an instruction changes is its destination, or v0 in the read_int of `syscall` with v0 = 5 (R29). -/
theorem ExecShape.changed_register {i : Instr} {s t : State} (h : ExecShape i s t) {r : RegName}
    (hne : t.readReg r ≠ s.readReg r) :
    i.dest? = some r ∨ (i = .syscall ∧ r = regV0 ∧ s.readReg regV0 = some 5) := by
  cases h with
  | wrote m bl rd v hd =>
    rw [retire_readReg] at hne
    rw [State.eq_of_readReg_setReg_ne (s := s.withMemory m bl) hne]
    exact .inl hd
  | readLine hi hv line rest _ v =>
    rw [retire_readReg] at hne
    exact .inr ⟨hi, State.eq_of_readReg_setReg_ne (s := takeLine rest s) hne, readReg_of_sint32_getReg hv (by decide)⟩
  | waits => exact absurd rfl hne
  | failed | stored | exited | badLine => exact absurd (by simp) hne
  | printed => exact absurd (retire_readReg ..) hne

/-- Settles O46: per instruction, the changed register against its destination field. -/
theorem onlyDestinationChanges : Obligations.OnlyDestinationChanges := by
  intro s t i r hs he hne
  have h := (exec_next hs.memOk he).changed_register hne
  cases i with
  | li | add | addi | move | slt | lw =>
    obtain hd | ⟨hi, -⟩ := h
    · exact (Option.some.inj hd).symm
    · cases hi
  | sw =>
    obtain hd | ⟨hi, -⟩ := h
    · cases hd
    · cases hi
  | syscall =>
    obtain hd | ⟨-, h⟩ := h
    · cases hd
    · exact h

/-! ## The canonical form of Main Memory's contents -/

theorem Memory.wfFrom_cons {lo k : Nat} {b : Byte} {m : Memory} :
    Memory.wfFrom lo ((k, b) :: m) = true ↔ lo ≤ k ∧ b ≠ unlistedByte ∧ m.wfFrom (k + 1) = true := by
  simp [Memory.wfFrom, and_assoc]

@[simp] theorem Memory.read_cons_same (k : Nat) (b : Byte) (m : Memory) : Memory.read ((k, b) :: m) k = b := by
  simp [Memory.read]

theorem Memory.read_cons_ne {a k : Nat} (b : Byte) (m : Memory) (h : a ≠ k) :
    Memory.read ((k, b) :: m) a = m.read a := by
  simp [Memory.read, h]

/-- Below the first listed address a canonical memory reads as unlisted, so a byte that does not is at or above it. -/
theorem Memory.head_le_of_read_ne {lo k a : Nat} {b : Byte} {m : Memory}
    (h : Memory.wfFrom lo ((k, b) :: m) = true) (hne : Memory.read ((k, b) :: m) a ≠ unlistedByte) : k ≤ a := by
  obtain ⟨-, hb, hm⟩ := Memory.wfFrom_cons.1 h
  exact Nat.le_of_not_lt fun ha => hne (Memory.read_below (Memory.wfFrom_cons.2 ⟨le_refl k, hb, hm⟩) ha)

/-- The list is determined by what it reads as, from any lower bound. -/
theorem Memory.eq_of_read_eq : ∀ {m m' : Memory} {lo : Nat}, m.wfFrom lo = true → m'.wfFrom lo = true →
    (∀ a, m.read a = m'.read a) → m = m'
  | [], [], _, _, _, _ => rfl
  | [], (k, b) :: m', _, _, h', hr => by
    obtain ⟨-, hb, -⟩ := Memory.wfFrom_cons.1 h'
    exact absurd (by simpa [Memory.read] using (hr k).symm) hb
  | (k, b) :: m, [], _, h, _, hr => by
    obtain ⟨-, hb, -⟩ := Memory.wfFrom_cons.1 h
    exact absurd (by simpa [Memory.read] using hr k) hb
  | (k, b) :: m, (k', b') :: m', lo, h, h', hr => by
    obtain ⟨-, hb, hm⟩ := Memory.wfFrom_cons.1 h
    obtain ⟨-, hb', hm'⟩ := Memory.wfFrom_cons.1 h'
    have hk : k = k' := Nat.le_antisymm
      (Memory.head_le_of_read_ne h (by rwa [hr, Memory.read_cons_same]))
      (Memory.head_le_of_read_ne h' (by rwa [← hr, Memory.read_cons_same]))
    subst hk
    have hbb : b = b' := by simpa using hr k
    have htail : ∀ a, Memory.read m a = Memory.read m' a := fun a => by
      by_cases ha : a = k
      · rw [Memory.read_below hm (by omega), Memory.read_below hm' (by omega)]
      · rw [← Memory.read_cons_ne b m ha, hr, Memory.read_cons_ne b' m' ha]
    rw [hbb, Memory.eq_of_read_eq hm hm' htail]

/-- Settles O48, from the lower bound 0. -/
theorem memoryIsCanonical : Obligations.MemoryIsCanonical := fun _ _ => Memory.eq_of_read_eq

/-! ## The fields of STATUS -/

/-- STATE fits its three bits, and so does ERR (R35). -/
theorem Status.field_range (st : Status) : st.stateCode ≤ 5 ∧ st.errCode ≤ 6 := by
  cases st with
  | failed k => exact ⟨le_refl _, k.code_range.2⟩
  | ready | running | waitInput | exited | ranOffEnd => decide

/-- ERR is set exactly in FAILED (R35). -/
theorem Status.errCode_ne_zero_iff (st : Status) : st.errCode ≠ 0 ↔ st.stateCode = 5 := by
  cases st with
  | failed k => exact iff_of_true (Nat.ne_of_gt k.code_range.1) rfl
  | ready | running | waitInput | exited | ranOffEnd => decide

/-- The word holds the two fields with nothing lost. -/
theorem statusWord_toNat (st : Status) : (statusWord st).toNat = st.stateCode + 8 * st.errCode := by
  obtain ⟨hs, he⟩ := st.field_range
  rw [statusWord, BitVec.toNat_ofNat, Nat.mod_eq_of_lt (by omega)]

/-- Settles O56: the fields of the word by their ranges, the codes by their definition. -/
theorem statusFields : Obligations.StatusFields := by
  refine ⟨fun st => ?_, ⟨rfl, rfl, rfl, rfl, rfl⟩, rfl, rfl, rfl, rfl, rfl, rfl⟩
  obtain ⟨hs, -⟩ := st.field_range
  rw [statusWord_toNat]
  exact ⟨by omega, by omega, st.errCode_ne_zero_iff⟩

end Sys2Proof.Machine
end

section
/-! PROOFS. The memory hierarchy (spec 20_memory.md): every step keeps the invariant, the three fields of an address,
what a read and a write through the Cache do, the two ways an access fails, and a block with the Cache against the same
block without it (R45, R66). -/

namespace Sys2Proof.Machine

/-! ## Every step keeps the invariant -/

theorem retire_memOk {s : State} (h : MemOk s) (r : Result) : MemOk (retire r s) :=
  h.congr (retire_config r s) (retire_mem r s) (retire_blocks r s)

/-- The end of an instruction never starts a wait, and keeps one only on Continue. -/
theorem retire_status_waitInput {s : State} {r : Result} (h : (retire r s).status = .waitInput) :
    r = .continued ∧ s.status = .waitInput := by
  cases hr : s.inRun with
  | false =>
    rw [retire_single r hr] at h
    exact absurd ((inRun_iff s).2 (.inr h)) (by simp [hr])
  | true =>
    cases r with
    | continued => exact ⟨rfl, by rwa [retire_continued_inRun hr] at h⟩
    | halted => rw [retire_halted_inRun hr] at h; cases h
    | failed k => rw [retire_failed_inRun k hr] at h; cases h

/-- A line taken ends the wait (R110). -/
theorem takeLine_status_ne_waitInput (rest : List Text) (s : State) : (takeLine rest s).status ≠ .waitInput := by
  rcases h : s.status <;> simp [takeLine, State.inRun, h]

section
variable {i : Instr} {r : Rec} {s t : State}

/-- The memory side of the invariant holds after an instruction. -/
theorem ExecShape.memOk (h : ExecShape i s t) (hm : MemOk s) : MemOk t := by
  cases h with
  | failed => exact retire_memOk hm _
  | wrote m bl rd v hd hm' =>
    refine retire_memOk ?_ _
    exact hm'.congr rfl rfl rfl
  | stored m bl rs off rt hi hm' => exact retire_memOk hm' _
  | printed | readLine | badLine | exited =>
    refine retire_memOk ?_ _
    exact hm.congr rfl rfl rfl
  | waits => exact hm.congr rfl rfl rfl

/-- No instruction adds or removes a register (R23). -/
theorem ExecShape.regs_length (h : ExecShape i s t) : t.regs.length = s.regs.length := by
  cases h with
  | wrote | readLine =>
    rw [retire_regs, State.setReg_regs_length]
    rfl
  | waits => rfl
  | failed | stored | printed | badLine | exited => exact congrArg List.length (retire_regs ..)

/-- OUT stays in the 32-bit signed range (R37). -/
theorem ExecShape.outRange (h : ExecShape i s t) (ho : ∀ v ∈ s.out, -(2 ^ 31) ≤ v ∧ v < 2 ^ 31) :
    ∀ v ∈ t.out, -(2 ^ 31) ≤ v ∧ v < 2 ^ 31 := by
  obtain heq | ⟨-, -, heq⟩ := h.out_cases <;> rw [heq]
  · exact ho
  · intro v hv
    rcases List.mem_append.1 hv with hv | hv
    · exact ho v hv
    · rw [List.mem_singleton.1 hv]
      exact sint32_range _

/-- Where WAIT_INPUT can stand after an instruction: `syscall` 5 has just begun to wait, or the wait stood before and
the instruction is no `syscall` 5 (R110). -/
theorem ExecShape.waitInput_cases (h : ExecShape i s t) (hw : t.status = .waitInput) :
    (t = { s with status := .waitInput } ∧ i = .syscall ∧ s.readReg regV0 = some 5 ∧ s.status = .running) ∨
    (s.status = .waitInput ∧ ¬ (i = .syscall ∧ s.readReg regV0 = some 5)) := by
  cases h with
  | waits hi hv _ _ hs => exact .inl ⟨rfl, hi, readReg_of_sint32_getReg hv (by decide), hs⟩
  | failed | badLine | exited => cases (retire_status_waitInput hw).1
  | wrote m bl rd v hd =>
    refine .inr ⟨(retire_status_waitInput hw).2, fun ⟨hi, _⟩ => ?_⟩
    subst hi
    cases hd
  | stored m bl rs off rt hi =>
    refine .inr ⟨(retire_status_waitInput hw).2, fun ⟨hi', _⟩ => ?_⟩
    cases hi.symm.trans hi'
  | printed hi hv =>
    refine .inr ⟨(retire_status_waitInput hw).2, fun ⟨_, h5⟩ => ?_⟩
    rw [getReg_of_readReg h5] at hv
    exact absurd hv (by decide)
  | readLine hi hv line rest => exact absurd (retire_status_waitInput hw).2 (takeLine_status_ne_waitInput rest s)

/-- An instruction keeps the invariant; in a run it is the one fetched. -/
theorem ExecShape.stateInv (h : ExecShape i s t) (hs : StateInv s)
    (hf : s.inRun = true → fetch s = some r) (hd : decode s.config.regNames r = .ok i) : StateInv t := by
  obtain ⟨hconf, hprog, -⟩ := h.sameLaunch
  have hm := h.memOk hs.memOk
  refine ⟨hm.configValid, by rw [h.regs_length, hconf]; exact hs.regsTotal, hm.memCanonical, hm.memWithin, hm.cacheOk,
    hprog ▸ hs.progShort, h.outRange hs.outRange, fun hw => ?_⟩
  obtain ⟨rfl, rfl, h5, hrun⟩ | ⟨hwait, hno⟩ := h.waitInput_cases hw
  · exact ⟨⟨r, hf ((inRun_iff s).2 (.inl hrun)), hd⟩, h5⟩
  · obtain ⟨⟨r', hf', hd'⟩, h5⟩ := hs.waiting hwait
    obtain rfl : r = r' := Option.some.inj ((hf ((inRun_iff s).2 (.inr hwait))).symm.trans hf')
    exact absurd ⟨Except.ok.inj (hd.symm.trans hd'), h5⟩ hno

/-- So does the execution of a record, a decode error included. -/
theorem ExecuteShape.stateInv (h : ExecuteShape r s t) (hs : StateInv s)
    (hf : s.inRun = true → fetch s = some r) : StateInv t := by
  cases h with
  | decodeError k =>
    refine hs.of_changes (retire_config ..) (by rw [retire_regs]) (retire_memOk hs.memOk _) (retire_prog ..)
      (by rw [retire_out]; exact hs.outRange) fun hw => ?_
    cases (retire_status_waitInput hw).1
  | executed i hd t he hx => exact hx.stateInv hs hf hd

/-- With no run active no wait stands. -/
theorem status_ne_waitInput (hr : s.inRun = false) : s.status ≠ .waitInput := fun hw =>
  absurd ((inRun_iff s).2 (.inr hw)) (by simp [hr])

theorem StepShape.stateInv (h : StepShape s t) (hs : StateInv s) : StateInv t := by
  cases h with
  | ranOff => exact hs.of_changes rfl rfl (hs.memOk.congr rfl rfl rfl) rfl hs.outRange (by simp)
  | ran hr r hf t hx => exact hx.stateInv hs fun _ => hf
  | started hr p rest hc hrdy hp => exact { hs with progShort := hp, waiting := fun hw => by cases hw }
  | single hr r rest hc t hx =>
    have hs' : StateInv { s with calls := rest } :=
      hs.of_changes rfl rfl (hs.memOk.congr rfl rfl rfl) rfl hs.outRange (status_ne_waitInput hr)
    exact hx.stateInv hs' fun hr' => absurd (hr.symm.trans hr') (by decide)

end

/-- Settles O38: by the cases of what a step can do. -/
theorem stepKeepsInv : Obligations.StepKeepsInv := fun _ _ hs h => (step_next hs.memOk h).stateInv hs

/-! ## The fields of an address -/

/-- Settles O49: each field by its own law. -/
theorem decomposeByDivision : Obligations.DecomposeByDivision := by
  intro c g a hv hg ha
  have hgeo := geometryOk_of_valid hv hg
  rw [← decompose_offset hgeo, ← decompose_index hgeo, ← decompose_tag hgeo ha]

/-- Settles O50: the slot's base and the offset give the address back. -/
theorem decomposeIsInjective : Obligations.DecomposeIsInjective := by
  intro c g a b hv hg ha hb hab
  have hgeo := geometryOk_of_valid hv hg
  rw [← slotBase_add_offset hgeo ha, hab, slotBase_add_offset hgeo hb]

/-! ## Reads and writes through the Cache -/

section
variable {g : CacheGeometry} {s t : State} {a : Int}

theorem not_straddles (h : HierOk g s) (hb : s.wordInBlock a) : straddles s.config.addrBits g a.toNat = false := by
  rw [← Bool.not_eq_true, straddles_iff h.geometry]
  exact fun hc => hc (hb g h.cache)

/-- A read inside a block is the four bytes of the block once it is resident (R56). -/
theorem memRead_resident (h : HierOk g s) (hi : s.wordInside a) (hb : s.wordInBlock a)
    (hr : makeResident g s a.toNat = .ok t) :
    memRead s a = .ok (((t.block (decompose s.config.addrBits g a.toNat).index).data.drop
      (decompose s.config.addrBits g a.toNat).offset).take 4, t) := by
  simp [memRead, (inBounds_iff s a).2 hi, h.cache, cacheRead, not_straddles h hb, hr]

/-- A write inside a block is a store into the block once it is resident (R57). -/
theorem memWrite_resident (h : HierOk g s) (hi : s.wordInside a) (hb : s.wordInBlock a) (w : List Byte)
    (hr : makeResident g s a.toNat = .ok t) :
    memWrite s a w = .ok (t.setBlock (decompose s.config.addrBits g a.toNat).index
      ((t.block (decompose s.config.addrBits g a.toNat).index).store
        (decompose s.config.addrBits g a.toNat).offset w)) := by
  simp [memWrite, (inBounds_iff s a).2 hi, h.cache, cacheWrite, not_straddles h hb, hr]

end

/-- `t` is `s` after a miss on the address `a`, which decomposes to `d`: Main Memory with the valid and dirty occupant
of the slot written back to its own base, the slot's block filled clean from the block-aligned base, and the rest as it
was (R56, R57, R59, R60). -/
structure MissedOn (g : CacheGeometry) (a : Nat) (d : Split) (s t : State) : Prop where
  mem : t.mem =
    if (s.block d.index).valid ∧ (s.block d.index).dirty
    then s.mem.writeBytes (slotBase g (s.block d.index).tag d.index) (s.block d.index).data
    else s.mem
  slot : t.block d.index =
    { valid := true, dirty := false, tag := d.tag, data := t.mem.readBytes (blockBase g a) g.blockBytes }
  others : ∀ j, j ≠ d.index → t.block j = s.block j
  count : t.blocks.length = s.blocks.length
  rest : t = { s with mem := t.mem, blocks := t.blocks }

section
variable {g : CacheGeometry} {s : State} {a : Nat}

theorem decompose_index_lt_blocks (h : HierOk g s) (a : Nat) :
    (decompose s.config.addrBits g a).index < s.blocks.length := by
  rw [h.count]; exact decompose_index_lt h.geometry a

/-- The miss path: write-back, then fill. -/
theorem makeResident_miss (h : HierOk g s) (ha : a < s.config.memBytes)
    (hmiss : (s.block (decompose s.config.addrBits g a).index).hits (decompose s.config.addrBits g a).tag = false) :
    ∃ t, makeResident g s a = .ok t ∧ MissedOn g a (decompose s.config.addrBits g a) s t := by
  obtain ⟨m, hw, hm, hok, -, hback⟩ := writeBackVictim_spec h (decompose_index_lt h.geometry a)
  obtain ⟨hf, -, -⟩ := fill_spec hok ha hback hmiss
  refine ⟨(s.withMemory m s.blocks).setBlock _ (filledBlock g (s.withMemory m s.blocks) a), ?_, ?_, ?_,
    fun j hj => block_setBlock_ne (s := s.withMemory m s.blocks) _ hj, ?_, rfl⟩
  · simp only [makeResident, hmiss, hw, Bool.false_eq_true, if_false]
    exact hf
  · simp only [Bool.and_eq_true] at hm
    exact hm
  · exact block_setBlock_same (s := s.withMemory m s.blocks) _ (decompose_index_lt_blocks h a)
  · simp [State.withMemory]

end

/-- Settles O51: a hit leaves the state, a miss is `makeResident_miss`. -/
theorem cacheReadHitAndMiss : Obligations.CacheReadHitAndMiss := by
  intro s g a hs hg hi
  have h := hs.hierOk hg
  refine ⟨memRead_straddling hs.memOk hi, fun hb => ⟨_, rfl, fun hh => ?_, fun hm => ?_⟩⟩
  · exact memRead_resident h hi hb (makeResident_hit (Block.hits_iff.2 hh))
  · rw [← Block.hits_iff, Bool.not_eq_true] at hm
    obtain ⟨t, hr, hmiss⟩ := makeResident_miss h (by obtain ⟨-, _⟩ := hi; omega) hm
    exact ⟨t, memRead_resident h hi hb hr, hmiss.mem, hmiss.slot, hmiss.others, hmiss.rest⟩

/-- Settles O52: the same two cases, with the store after them. -/
theorem cacheWriteHitAndMiss : Obligations.CacheWriteHitAndMiss := by
  intro s g a w hs hg hw hi
  have h := hs.hierOk hg
  refine ⟨memWrite_straddling hs.memOk hi, fun hb => ⟨_, rfl, ?_⟩⟩
  have hlt := decompose_index_lt_blocks h a
  cases hh : (s.block (decompose s.config.addrBits g a).index).hits (decompose s.config.addrBits g a).tag with
  | true =>
    obtain ⟨hv, ht⟩ := Block.hits_iff.1 hh
    refine ⟨_, memWrite_resident h hi hb w (makeResident_hit hh), fun j hj => block_setBlock_ne _ hj, rfl,
      fun _ => ⟨rfl, ?_⟩, fun hm => absurd ⟨hv, ht⟩ hm⟩
    exact (block_setBlock_same _ hlt).trans (by simp [Block.store, overwrite, hw, hv, ht])
  | false =>
    obtain ⟨t, hr, hmiss⟩ := makeResident_miss h (by obtain ⟨-, _⟩ := hi; omega) hh
    refine ⟨_, memWrite_resident h hi hb w hr, fun j hj => (block_setBlock_ne _ hj).trans (hmiss.others j hj), ?_,
      fun hit => ?_, fun _ => ⟨hmiss.mem, ?_⟩⟩
    · conv_lhs => rw [hmiss.rest]
      rfl
    · rw [Block.hits_iff.2 hit] at hh
      cases hh
    · refine (block_setBlock_same _ (hmiss.count ▸ hlt)).trans ?_
      rw [Int.toNat_natCast, hmiss.slot]
      simp [Block.store, overwrite, hw, blockBase]

/-- A read succeeds only on a word inside memory and inside one block (R47, R55). -/
theorem inside_of_memRead_ok {s : State} {a : Int} {x : List Byte × State} (hm : MemOk s) (h : memRead s a = .ok x) :
    s.wordInside a ∧ s.wordInBlock a := by
  have hi : s.wordInside a := Classical.by_contradiction fun hi => by rw [memRead_outside hi] at h; cases h
  exact ⟨hi, Classical.by_contradiction fun hb => by rw [memRead_straddling hm hi hb] at h; cases h⟩

/-- So does a write. -/
theorem inside_of_memWrite_ok {s t : State} {a : Int} {w : List Byte} (hm : MemOk s) (h : memWrite s a w = .ok t) :
    s.wordInside a ∧ s.wordInBlock a := by
  have hi : s.wordInside a := Classical.by_contradiction fun hi => by rw [memWrite_outside hi] at h; cases h
  exact ⟨hi, Classical.by_contradiction fun hb => by rw [memWrite_straddling hm hi hb] at h; cases h⟩

/-- Settles O53: the write leaves the bytes in the view, and the read returns the view. -/
theorem readAfterWrite : Obligations.ReadAfterWrite := by
  intro s t a w hs hw
  obtain ⟨hi, hb⟩ := inside_of_memWrite_ok hs.memOk hw
  obtain ⟨m, bl, he, hok, hview⟩ := memWrite_inside hs.memOk (le32_length w) hi hb
  obtain rfl : s.withMemory m bl = t := Except.ok.inj (he.symm.trans hw)
  obtain ⟨m', bl', hr, -, -⟩ := memRead_inside (a := a) hok hi hb
  have hin := toNat_inside hi
  have hbyte : ∀ k, k < 4 → view (s.withMemory m bl) (a.toNat + k) = (le32 w).getD k 0 := fun k hk => by
    rw [hview _ (by omega), if_pos (by omega), Nat.add_sub_cancel_left]
  have hbytes : viewBytes (s.withMemory m bl) a.toNat = le32 w := by
    simp only [viewBytes, hbyte 1 (by omega), hbyte 2 (by omega), hbyte 3 (by omega)]
    exact congrArg (· :: _) (hbyte 0 (by omega))
  exact ⟨_, hbytes ▸ hr⟩

/-- Settles O54: without the Cache a read leaves the state; with it the block is resident after the first read. -/
theorem readIsIdempotent : Obligations.ReadIsIdempotent := by
  intro s t a bytes hs h
  obtain ⟨hi, hb⟩ := inside_of_memRead_ok hs.memOk h
  cases hg : s.config.cache with
  | none =>
    have ht : t = s := by
      simp only [memRead, (inBounds_iff s a).2 hi, if_true, hg] at h
      split at h
      · cases h
      · cases h; rfl
    rwa [ht] at h ⊢
  | some g =>
    have hh := hs.hierOk hg
    obtain ⟨m, bl, hr, hok, -, hhit⟩ := makeResident_spec hh (a := a.toNat) (by have := toNat_inside hi; omega)
    obtain ⟨rfl, rfl⟩ := Prod.mk.inj (Except.ok.inj ((memRead_resident hh hi hb hr).symm.trans h))
    exact memRead_resident hok hi hb (makeResident_hit hhit)

/-! ## The two ways an access fails, and the only way memory changes -/

theorem failsWith_fail (k : ErrorKind) (s : State) : FailsWith k s (fail k s) := by
  cases hr : s.inRun with
  | true => simp [FailsWith, fail, retire_failed_inRun k hr, hr]
  | false => simp [FailsWith, fail, retire_single _ hr, hr]

section
variable {s : State} {r base : RegName} {off : Int} {k : ErrorKind}
  (hl : s.regs.length = s.config.regNames.length) (hr : r ∈ s.config.regNames) (hbase : base ∈ s.config.regNames)
include hl hr hbase

/-- `lw` and `sw` over known registers raise what their access raises, with nothing changed (R95, R105, R106). -/
theorem failsWith_of_access_error (hread : memRead s (effAddr s base off) = .error k)
    (hwrite : ∀ w, memWrite s (effAddr s base off) (le32 w) = .error k) :
    FailsWith k s (exec (.lw r off base) s) ∧ FailsWith k s (exec (.sw r off base) s) := by
  have hregs : ∀ x ∈ [r, base], x ∈ s.config.regNames := by simp [hr, hbase]
  simp only [exec, execLw, execSw, requireRegs_of_mem hl hregs, hread, hwrite]
  exact ⟨failsWith_fail k s, failsWith_fail k s⟩

end

/-- Settles O23: the bounds check is made before the Cache acts. -/
theorem outOfBoundsFails : Obligations.OutOfBoundsFails := by
  intro s r base off hl hr hbase hout
  have hi : ¬ s.wordInside (effAddr s base off) := by
    rintro ⟨_, _⟩
    omega
  exact failsWith_of_access_error hl hr hbase (memRead_outside hi) fun _ => memWrite_outside hi

/-- Settles O24: the straddle check is made before the lookup. -/
theorem straddlingFails : Obligations.StraddlingFails := by
  intro s g r base off hs hg hr hbase hi hcross
  have hb : ¬ s.wordInBlock (effAddr s base off) := fun hb => Nat.not_le_of_gt hcross (hb g hg)
  exact failsWith_of_access_error hs.regsTotal hr hbase (memRead_straddling hs.memOk hi hb)
    fun _ => memWrite_straddling hs.memOk hi hb

/-- The end of an instruction leaves the view. -/
theorem view_retire (r : Result) (s : State) (a : Nat) : view (retire r s) a = view s a :=
  view_of_same (retire_config r s) (retire_mem r s) (retire_blocks r s) a

/-- Settles O45: an access of `lw` leaves the view, and the other ends leave the memory side itself. -/
theorem onlyStoreWritesMemory : Obligations.OnlyStoreWritesMemory := by
  intro s t i hs he hne a ha
  cases exec_next hs.memOk he with
  | wrote m bl rd v hd hm hv => exact (view_retire ..).trans (hv a ha)
  | stored m bl rs off rt hi => exact absurd hi (hne rs off rt)
  | waits => rfl
  | failed | printed | readLine | badLine | exited => exact view_retire ..

/-! ## The block without its Cache -/

/-- Two outcomes agree up to the Cache: next states that `Uncached` relates, the same fault, or the same refusal. -/
inductive Matched : Out → Out → Prop where
  | next {s u : State} (h : Uncached s u) : Matched (.next s) (.next u)
  | fault (f : Fault) : Matched (.fault f) (.fault f)
  | refused (x : Refusal) : Matched (.refused x) (.refused x)

theorem Matched.eq_next {t : State} {o : Out} (h : Matched (.next t) o) : ∃ v, o = .next v ∧ Uncached t v := by
  cases h with
  | next h => exact ⟨_, rfl, h⟩

theorem Matched.eq_fault {f : Fault} {o : Out} (h : Matched (.fault f) o) : o = .fault f := by
  cases h
  rfl

theorem Matched.eq_refused {x : Refusal} {o : Out} (h : Matched (.refused x) o) : o = .refused x := by
  cases h
  rfl

section
variable {s u : State} (h : Uncached s u)
include h

theorem Uncached.memBytes : u.config.memBytes = s.config.memBytes := by rw [h.config]

theorem Uncached.regNames : u.config.regNames = s.config.regNames := by rw [h.config]

theorem Uncached.inRun_eq : u.inRun = s.inRun := inRun_congr h.status

theorem Uncached.readReg_eq (r : RegName) : u.readReg r = s.readReg r := by
  simp only [State.readReg, h.regNames, h.regs]

theorem Uncached.getReg_eq (r : RegName) : u.getReg r = s.getReg r := by simp only [State.getReg, h.readReg_eq]

theorem Uncached.hasReg_eq : u.hasReg = s.hasReg := by
  funext r
  simp only [State.hasReg, h.readReg_eq]

theorem Uncached.effAddr_eq (r : RegName) (off : Int) : effAddr u r off = effAddr s r off := by
  simp only [effAddr, h.getReg_eq]

/-- Both blocks hold the same coherent view (R66). -/
theorem Uncached.view_eq {a : Nat} (ha : a < s.config.memBytes) : view u a = view s a := by
  rw [← h.mem a ha]
  simp only [view, h.config]

theorem Uncached.wordInside_iff (a : Int) : u.wordInside a ↔ s.wordInside a := by
  simp only [State.wordInside, h.memBytes]

/-- Without the Cache no word straddles. -/
theorem Uncached.wordInBlock (a : Int) : u.wordInBlock a := fun g hg => by
  rw [h.config] at hg
  cases hg

/-- Memory changed on both sides so that the views agree again. -/
theorem Uncached.after_withMemory {m m' : Memory} {bl bl' : List Block}
    (hv : ∀ a, a < s.config.memBytes → view (u.withMemory m' bl') a = view (s.withMemory m bl) a) :
    Uncached (s.withMemory m bl) (u.withMemory m' bl') where
  config := h.config
  regs := h.regs
  pc := h.pc
  status := h.status
  out := h.out
  prog := h.prog
  input := h.input
  calls := h.calls
  singleResult := h.singleResult
  mem a ha := by
    rw [← hv a ha]
    simp only [view, State.withMemory, h.config]

theorem Uncached.after_setReg (r : RegName) (v : Int) : Uncached (s.setReg r v) (u.setReg r v) :=
  { h with regs := by simp only [State.setReg, h.regNames, h.regs] }

theorem Uncached.after_takeLine (rest : List Text) : Uncached (takeLine rest s) (takeLine rest u) :=
  { h with
    input := rfl
    status := by simp only [takeLine, h.inRun_eq, h.status] }

theorem Uncached.after_retire (r : Result) : Uncached (retire r s) (retire r u) := by
  cases hr : s.inRun with
  | false =>
    rw [retire_single r hr, retire_single r (h.inRun_eq.trans hr)]
    exact { h with singleResult := rfl }
  | true =>
    have hr' := h.inRun_eq.trans hr
    cases r with
    | continued =>
      rw [retire_continued_inRun hr, retire_continued_inRun hr']
      exact { h with pc := congrArg (· + 1) h.pc }
    | halted =>
      rw [retire_halted_inRun hr, retire_halted_inRun hr']
      exact { h with status := rfl }
    | failed k =>
      rw [retire_failed_inRun k hr, retire_failed_inRun k hr']
      exact { h with status := rfl }

end

/-! ### The parts of an instruction on the two blocks -/

section
variable {s u : State} (h : Uncached s u)
include h

theorem complete_matched : Matched (complete s) (complete u) := .next (h.after_retire _)

theorem fail_matched (k : ErrorKind) : Matched (fail k s) (fail k u) := .next (h.after_retire _)

theorem writeResult_matched (rd : RegName) (v : Int) : Matched (writeResult rd v s) (writeResult rd v u) :=
  complete_matched (h.after_setReg rd v)

theorem requireRegs_matched (rs : List RegName) {x y : Out} (hxy : Matched x y) :
    Matched (requireRegs rs s x) (requireRegs rs u y) := by
  simp only [requireRegs, h.hasReg_eq]
  split
  · exact hxy
  · exact fail_matched h _

variable (hs : MemOk s) (hu : MemOk u)
include hs hu

/-- A read that does not straddle: the same bytes from both blocks, or OutOfBounds from both (R45, R66). -/
theorem memRead_matched {a : Int} (hns : ¬ (s.wordInside a ∧ ¬ s.wordInBlock a)) :
    (∃ bytes s' u', memRead s a = .ok (bytes, s') ∧ memRead u a = .ok (bytes, u') ∧ Uncached s' u') ∨
    (memRead s a = .error .outOfBounds ∧ memRead u a = .error .outOfBounds) := by
  by_cases hi : s.wordInside a
  · have hb : s.wordInBlock a := Classical.by_contradiction fun hb => hns ⟨hi, hb⟩
    obtain ⟨m, bl, he, -, hv⟩ := memRead_inside hs hi hb
    obtain ⟨m', bl', he', -, hv'⟩ := memRead_inside hu ((h.wordInside_iff a).2 hi) (h.wordInBlock a)
    have hin := toNat_inside hi
    have hbytes : viewBytes u a.toNat = viewBytes s a.toNat := by
      simp only [viewBytes]
      rw [h.view_eq (by omega), h.view_eq (by omega), h.view_eq (by omega), h.view_eq (by omega)]
    refine .inl ⟨_, _, _, he, hbytes ▸ he', h.after_withMemory fun x hx => ?_⟩
    rw [hv' x (h.memBytes.symm ▸ hx), h.view_eq hx, hv x hx]
  · exact .inr ⟨memRead_outside hi, memRead_outside (mt (h.wordInside_iff a).1 hi)⟩

/-- A write that does not straddle: done by both blocks, or OutOfBounds from both (R46, R66). -/
theorem memWrite_matched {a : Int} {w : List Byte} (hw : w.length = 4)
    (hns : ¬ (s.wordInside a ∧ ¬ s.wordInBlock a)) :
    (∃ s' u', memWrite s a w = .ok s' ∧ memWrite u a w = .ok u' ∧ Uncached s' u') ∨
    (memWrite s a w = .error .outOfBounds ∧ memWrite u a w = .error .outOfBounds) := by
  by_cases hi : s.wordInside a
  · have hb : s.wordInBlock a := Classical.by_contradiction fun hb => hns ⟨hi, hb⟩
    obtain ⟨m, bl, he, -, hv⟩ := memWrite_inside hs hw hi hb
    obtain ⟨m', bl', he', -, hv'⟩ := memWrite_inside hu hw ((h.wordInside_iff a).2 hi) (h.wordInBlock a)
    refine .inl ⟨_, _, he, he', h.after_withMemory fun x hx => ?_⟩
    rw [hv' x (h.memBytes.symm ▸ hx), hv x hx, h.view_eq hx]
  · exact .inr ⟨memWrite_outside hi, memWrite_outside (mt (h.wordInside_iff a).1 hi)⟩

theorem execLw_matched {rd rs : RegName} {off : Int} (hns : ¬ straddlesIn s (.lw rd off rs)) :
    Matched (execLw rd off rs s) (execLw rd off rs u) := by
  refine requireRegs_matched h _ ?_
  rw [h.effAddr_eq]
  obtain ⟨bytes, s', u', he, he', h'⟩ | ⟨he, he'⟩ := memRead_matched h hs hu hns <;> rw [he, he']
  · exact writeResult_matched h' rd _
  · exact fail_matched h _

theorem execSw_matched {rs rt : RegName} {off : Int} (hns : ¬ straddlesIn s (.sw rs off rt)) :
    Matched (execSw rs off rt s) (execSw rs off rt u) := by
  refine requireRegs_matched h _ ?_
  rw [h.effAddr_eq, h.getReg_eq]
  obtain ⟨s', u', he, he', h'⟩ | ⟨he, he'⟩ := memWrite_matched h hs hu (le32_length (s.getReg rs)) hns <;>
    rw [he, he']
  · exact complete_matched h'
  · exact fail_matched h _

end

section
variable {s u : State} (h : Uncached s u)
include h

theorem sysPrint_matched : Matched (sysPrint s) (sysPrint u) := by
  refine requireRegs_matched h _ (complete_matched ?_)
  exact { h with out := by simp only [h.out, h.getReg_eq] }

theorem awaitLine_matched : Matched (awaitLine s) (awaitLine u) := by
  simp only [awaitLine, h.status]
  split
  · exact .next { h with status := rfl }
  · exact .fault _

theorem sysReadInt_matched : Matched (sysReadInt s) (sysReadInt u) := by
  simp only [sysReadInt, h.input]
  split
  · exact awaitLine_matched h
  · split
    · exact fail_matched (h.after_takeLine _) _
    · exact writeResult_matched (h.after_takeLine _) regV0 _

theorem execSyscall_matched : Matched (execSyscall s) (execSyscall u) := by
  refine requireRegs_matched h _ ?_
  rw [h.getReg_eq]
  split
  · exact sysPrint_matched h
  · split
    · exact sysReadInt_matched h
    · split
      · exact .next (h.after_retire _)
      · exact fail_matched h _

variable (hs : MemOk s) (hu : MemOk u)
include hs hu

/-- An instruction that does not straddle ends alike on both blocks. -/
theorem exec_matched {i : Instr} (hns : ¬ straddlesIn s i) : Matched (exec i s) (exec i u) := by
  cases i with
  | li rd imm => exact requireRegs_matched h _ (writeResult_matched h rd _)
  | add rd rs rt | slt rd rs rt | addi rd rs imm | move rd rs =>
    refine requireRegs_matched h _ ?_
    simp only [h.getReg_eq]
    exact writeResult_matched h rd _
  | lw rd off rs => exact execLw_matched h hs hu hns
  | sw rs off rt => exact execSw_matched h hs hu hns
  | syscall => exact execSyscall_matched h

/-- So does a record, a decode error included: REG_NAMES is the same. -/
theorem execute_matched {r : Rec} (hns : ∀ i, decode s.config.regNames r = .ok i → ¬ straddlesIn s i) :
    Matched (execute r s) (execute r u) := by
  simp only [execute, h.regNames]
  split
  · exact fail_matched h _
  · next i hd => exact exec_matched h hs hu (hns i hd)

end

/-! ### The step on the two blocks -/

theorem stepRec_inRun {s : State} (hr : s.inRun = true) : stepRec s = fetch s := by simp only [stepRec, hr, if_true]

theorem stepRec_single {s : State} {r : Rec} {rest : List HostCall} (hr : s.inRun = false)
    (hc : s.calls = .executeSingle r :: rest) : stepRec s = some r := by
  simp [stepRec, hr, hc]

/-- The record of the step decodes to the instruction of the step. -/
theorem stepInstr_eq_some {s : State} {r : Rec} {i : Instr} (hr : stepRec s = some r)
    (hd : decode s.config.regNames r = .ok i) : stepInstr s = some i := by
  simp only [stepInstr, hr, hd]

/-- Whether an instruction straddles does not depend on the host's calls. -/
theorem straddlesIn_calls (s : State) (calls : List HostCall) (i : Instr) :
    straddlesIn { s with calls := calls } i ↔ straddlesIn s i := by
  cases i <;> exact Iff.rfl

theorem start_matched {s u : State} (h : Uncached s u) (p : List Rec) : Matched (start p s) (start p u) := by
  simp only [start, h.status]
  split
  · split
    · exact .next { h with prog := rfl, status := rfl }
    · exact .refused _
  · exact .refused _

section
variable {s u : State} (h : Uncached s u) (hs : MemOk s) (hu : MemOk u)
  (hns : ∀ i, stepInstr s = some i → ¬ straddlesIn s i)
include h hs hu hns

theorem runLoop_matched (hr : s.inRun = true) : Matched (runLoop s) (runLoop u) := by
  have hfetch : fetch u = fetch s := by simp only [fetch, h.prog, h.pc]
  simp only [runLoop, hfetch]
  split
  · exact .next { h with status := rfl }
  · next r hf =>
    exact execute_matched h hs hu fun i hd => hns i (stepInstr_eq_some ((stepRec_inRun hr).trans hf) hd)

theorem serveCall_matched (hr : s.inRun = false) : Matched (serveCall s) (serveCall u) := by
  have hcalls : ∀ rest, Uncached { s with calls := rest } { u with calls := rest } := fun _ => { h with calls := rfl }
  simp only [serveCall, h.calls]
  split
  · exact .fault _
  · next p rest hc => exact start_matched (hcalls rest) p
  · next r rest hc =>
    have hns' : ∀ i, decode s.config.regNames r = .ok i → ¬ straddlesIn { s with calls := rest } i := fun i hd =>
      mt (straddlesIn_calls s rest i).1 (hns i (stepInstr_eq_some (stepRec_single hr hc) hd))
    simp only [executeSingle, (hcalls rest).inRun_eq]
    split
    · exact .refused _
    · exact execute_matched (hcalls rest) (hs.congr rfl rfl rfl) (hu.congr rfl rfl rfl) hns'

/-- A step that does not straddle ends alike on both blocks. -/
theorem step_matched : Matched (step s) (step u) := by
  unfold step
  rw [h.inRun_eq]
  split
  · next hr => exact runLoop_matched h hs hu hns hr
  · next hr => exact serveCall_matched h hs hu hns (by simpa using hr)

end

/-- Settles O55: the three outcomes of a matched step. -/
theorem cacheIsTransparent : Obligations.CacheIsTransparent := by
  intro s u hs hu h hns
  have hm := step_matched h hs.memOk hu.memOk hns
  exact ⟨fun t ht => Matched.eq_next (ht ▸ hm), fun f hf => Matched.eq_fault (hf ▸ hm),
    fun x hx => Matched.eq_refused (hx ▸ hm)⟩

end Sys2Proof.Machine
end

section
/-! PROOFS. The encoding (spec 30_encoding.md): the operand tokens (R76, R77), the decode procedure (R86) against the
encoder, its errors (R80 to R82), and a record spelled by a word. -/

namespace Sys2Proof

/-! ## Immediate tokens -/

theorem parseNat_iff {t : Text} {n : Nat} : parseNat t = some n ↔
    t ≠ [] ∧ (∀ c ∈ t, 48 ≤ c.toNat ∧ c.toNat ≤ 57) ∧ n = t.foldl (fun n c => 10 * n + (c.toNat - 48)) 0 := by
  cases t with
  | nil => simp [parseNat]
  | cons c t => rw [parseNat, parseDigits_iff]; simp

/-- A token that begins with no sign is read as its digits. -/
theorem parseImm_unsigned {t : Text} {n : Nat} (h : parseNat t = some n) : parseImm t = some (n : Int) := by
  obtain ⟨-, hd, -⟩ := parseNat_iff.1 h
  unfold parseImm
  split
  · exact absurd (hd '-' (by simp)) (by decide)
  · exact absurd (hd '+' (by simp)) (by decide)
  · simp [h]

/-- An immediate token is an optional sign before a numeral, and the sign `-` negates its value (R76). -/
theorem parseImm_iff {t : Text} {v : Int} : parseImm t = some v ↔
    ∃ (sign digits : Text) (n : Nat), (sign = [] ∨ sign = ['+'] ∨ sign = ['-']) ∧ parseNat digits = some n ∧
      t = sign ++ digits ∧ v = (if sign = ['-'] then -1 else 1) * (n : Int) := by
  constructor
  · intro h
    unfold parseImm at h
    split at h
    · next u =>
      obtain ⟨n, hn, rfl⟩ := Option.map_eq_some_iff.1 h
      exact ⟨['-'], u, n, by simp, hn, rfl, by simp⟩
    · next u =>
      obtain ⟨n, hn, rfl⟩ := Option.map_eq_some_iff.1 h
      exact ⟨['+'], u, n, by simp, hn, rfl, by simp⟩
    · obtain ⟨n, hn, rfl⟩ := Option.map_eq_some_iff.1 h
      exact ⟨[], t, n, by simp, hn, rfl, by simp⟩
  · rintro ⟨sign, digits, n, rfl | rfl | rfl, hn, rfl, rfl⟩
    · simpa using parseImm_unsigned hn
    · simp [parseImm, hn]
    · simp [parseImm, hn]

/-- Settles O7: the sign by `parseImm_iff`, the digits and their value by `parseNat_iff`. -/
theorem immediateSyntax : Obligations.ImmediateSyntax := by
  intro t v
  rw [parseImm_iff]
  constructor
  · rintro ⟨sign, digits, n, hs, hn, ht, hv⟩
    obtain ⟨hne, hd, rfl⟩ := parseNat_iff.1 hn
    exact ⟨sign, digits, hs, hne, hd, ht, hv⟩
  · rintro ⟨sign, digits, hs, hne, hd, ht, hv⟩
    exact ⟨sign, digits, _, hs, parseNat_iff.2 ⟨hne, hd, rfl⟩, ht, hv⟩

/-! ## Memory-operand tokens -/

/-- No character of an immediate token is an opening parenthesis. -/
theorem parseImm_noParen {t : Text} {v : Int} (h : parseImm t = some v) : '(' ∉ t := by
  obtain ⟨sign, digits, n, hs, hn, rfl, -⟩ := parseImm_iff.1 h
  obtain ⟨-, hd, -⟩ := parseNat_iff.1 hn
  rw [List.mem_append, not_or]
  exact ⟨by rcases hs with rfl | rfl | rfl <;> decide, fun hm => absurd (hd _ hm) (by decide)⟩

theorem parseMem_iff {t r : Text} {v : Int} : parseMem t = some (v, r) ↔
    ∃ off rest, cutAtOpen t = some (off, rest) ∧ parseImm off = some v ∧ cutAtClose rest = some r ∧ r ≠ [] := by
  constructor
  · intro h
    unfold parseMem at h
    split at h
    · cases h
    · next off rest ho =>
      split at h
      · next hv hc => cases h; exact ⟨off, rest, ho, hv, hc, List.cons_ne_nil _ _⟩
      · cases h
  · rintro ⟨off, rest, ho, hv, hc, hne⟩
    obtain ⟨c, inner, rfl⟩ := List.exists_cons_of_ne_nil hne
    simp only [parseMem, ho, hv, hc]

/-- Settles O8: the first opening parenthesis ends the offset, and the last character is the closing one. -/
theorem memOperandSyntax : Obligations.MemOperandSyntax := by
  intro t r v
  rw [parseMem_iff]
  constructor
  · rintro ⟨off, rest, ho, hv, hc, hne⟩
    obtain ⟨-, rfl⟩ := cutAtOpen_inv ho
    obtain ⟨hopen, hclose, rfl⟩ := cutAtClose_inv hc
    exact ⟨off, hv, hne, hopen, hclose, by simp⟩
  · rintro ⟨off, hv, hne, hopen, hclose, rfl⟩
    refine ⟨off, r ++ [')'], ?_, hv, cutAtClose_append hopen hclose, hne⟩
    rw [List.append_assoc, List.cons_append]
    exact cutAtOpen_append (parseImm_noParen hv)

/-! ## The operands of an instruction

`Op.build` puts operands together into an instruction; `Instr.operands` takes it apart again. -/

/-- The operands an instruction is built from, in the order of R74. -/
def Instr.operands : Instr → List Operand
  | .li rd v => [.reg rd, .imm v]
  | .add rd rs rt => [.reg rd, .reg rs, .reg rt]
  | .addi rd rs v => [.reg rd, .reg rs, .imm v]
  | .move rd rs => [.reg rd, .reg rs]
  | .slt rd rs rt => [.reg rd, .reg rs, .reg rt]
  | .lw rd off rs => [.reg rd, .mem off rs]
  | .sw rs off rt => [.reg rs, .mem off rt]
  | .syscall => []

theorem Op.build_iff {op : Op} {os : List Operand} {i : Instr} :
    op.build os = some i ↔ i.op = op ∧ i.operands = os := by
  constructor
  · intro h
    unfold Op.build at h
    split at h <;> cases h <;> exact ⟨rfl, rfl⟩
  · rintro ⟨rfl, rfl⟩
    cases i <;> rfl

@[simp] theorem Instr.operands_kind (i : Instr) : i.operands.map Operand.kind = i.op.shape := by
  cases i <;> rfl

/-- The token the encoder writes for an operand (log entry 12). -/
def Operand.token : Operand → Text
  | .reg r => encodeReg r
  | .imm v => encodeImm v
  | .mem off r => encodeMem off r

@[simp] theorem Instr.operands_token (i : Instr) : i.operands.map Operand.token = i.operandTokens := by
  cases i <;> rfl

/-- The base of a memory operand holds no parenthesis (R77). -/
def Operand.baseOk : Operand → Bool
  | .reg _ | .imm _ => true
  | .mem _ r => noParen r

/-- An instruction is well formed when each of its operands is. -/
theorem Instr.wellFormed_iff {names : List RegName} {i : Instr} : i.wellFormed names = true ↔
    (∀ o ∈ i.operands, o.known names = true) ∧ ∀ o ∈ i.operands, o.baseOk = true := by
  cases i <;> simp [wellFormed, regs, base?, operands, Operand.known, Operand.baseOk]

/-! ## One operand and its token -/

theorem parseOperand_token {o : Operand} (h : o.baseOk = true) : parseOperand o.kind o.token = some o := by
  cases o with
  | reg r => rfl
  | imm v => simp [Operand.kind, Operand.token, parseOperand]
  | mem off r => simp [Operand.kind, Operand.token, parseOperand, parseMem_encodeMem off h]

theorem parseOperands_tokens : ∀ {os : List Operand}, (∀ o ∈ os, o.baseOk = true) →
    parseOperands (os.map Operand.kind) (os.map Operand.token) = some os
  | [], _ => rfl
  | o :: os, h => by
    obtain ⟨ho, hos⟩ := List.forall_mem_cons.1 h
    simp [parseOperands, parseOperand_token ho, parseOperands_tokens hos]

theorem noParen_regOfToken {t : Text} (h : noParen t = true) : noParen (regOfToken t) = true := by
  unfold regOfToken
  split
  · next u => simpa [noParen] using h
  · exact h

theorem parseOperand_baseOk {k : OperandKind} {t : Text} {o : Operand} (h : parseOperand k t = some o) :
    o.baseOk = true := by
  cases k <;> simp only [parseOperand, Option.map_eq_some_iff, Option.some.injEq] at h
  case reg => subst h; rfl
  case imm => obtain ⟨v, -, rfl⟩ := h; rfl
  case mem =>
    obtain ⟨⟨v, r⟩, hp, rfl⟩ := h
    obtain ⟨off, -, -, hopen, hclose, -⟩ := (memOperandSyntax t r v).1 hp
    exact noParen_regOfToken ((noParen_iff r).2 ⟨hopen, hclose⟩)

theorem parseOperands_baseOk : ∀ {ks : List OperandKind} {ts : List Text} {os : List Operand},
    parseOperands ks ts = some os → ∀ o ∈ os, o.baseOk = true
  | [], _, os, h => by cases h; simp
  | _ :: _, [], _, h => by cases h
  | k :: ks, t :: ts, os, h => by
    simp only [parseOperands] at h
    split at h
    · cases h
    · next o ho =>
      obtain ⟨os', hos, rfl⟩ := Option.map_eq_some_iff.1 h
      exact List.forall_mem_cons.2 ⟨parseOperand_baseOk ho, parseOperands_baseOk hos⟩

/-- Another token that reads as the same operand leaves what the tokens read as. -/
theorem parseOperands_set : ∀ {ks : List OperandKind} {ts : List Text} {n : Nat} {k : OperandKind} {t u : Text},
    ks[n]? = some k → ts[n]? = some t → parseOperand k u = parseOperand k t →
    parseOperands ks (ts.set n u) = parseOperands ks ts
  | [], _, _, _, _, _, hk, _, _ => by cases hk
  | _ :: _, [], _, _, _, _, _, ht, _ => by cases ht
  | k :: ks, t :: ts, 0, _, _, u, hk, ht, h => by
    cases hk; cases ht
    simp only [List.set_cons_zero, parseOperands, h]
  | k :: ks, t :: ts, n + 1, _, _, u, hk, ht, h => by
    simp only [List.set_cons_succ, parseOperands]
    rw [parseOperands_set (ks := ks) (ts := ts) (by simpa using hk) (by simpa using ht) h]

/-! ## The decode procedure, said once -/

/-- The record passes the checks of its mnemonic, its operand count and its tokens (R86, steps before the names),
and this is what it reads as. -/
structure Parses (r : Rec) (op : Op) (os : List Operand) : Prop where
  row : Op.ofMnemonic r.mnemonic = some op
  count : r.operands.length = op.shape.length
  tokens : parseOperands op.shape r.operands = some os

section
variable {names : List RegName} {r : Rec} {op : Op} {os : List Operand} {i : Instr}

/-- The operands of a record that passes are those of one instruction of its row. -/
theorem Parses.exists_instr (h : Parses r op os) : ∃ i : Instr, i.op = op ∧ i.operands = os := by
  obtain ⟨i, hb, -⟩ := Op.build_of_kinds (parseOperands_kinds h.tokens)
  exact ⟨i, Op.build_iff.1 hb⟩

theorem parses_or_not (r : Rec) : (∃ i : Instr, Parses r i.op i.operands) ∨ ∀ op os, ¬ Parses r op os := by
  by_cases h : ∃ op os, Parses r op os
  · obtain ⟨op, os, hp⟩ := h
    obtain ⟨i, rfl, rfl⟩ := hp.exists_instr
    exact .inl ⟨i, hp⟩
  · exact .inr fun op os hp => h ⟨op, os, hp⟩

/-- Past those checks the names alone decide (R82, R86). -/
theorem Parses.decode_eq (h : Parses r i.op i.operands) (names : List RegName) :
    decode names r = if i.operands.all (fun o => o.known names) then .ok i else .error .unknownRegister := by
  have hb : i.op.build i.operands = some i := Op.build_iff.2 ⟨rfl, rfl⟩
  simp only [decode, h.row, h.count, h.tokens, hb, ne_eq, not_true, if_false]

/-- A record that fails one of those checks is an invalid instruction (R80, R81). -/
theorem decode_of_not_parses (h : ∀ op os, ¬ Parses r op os) : decode names r = .error .invalidInstruction := by
  unfold decode
  split
  · rfl
  · next op hop =>
    split
    · rfl
    · next hlen =>
      split
      · rfl
      · next os hos => exact absurd ⟨hop, not_not.1 hlen, hos⟩ (h op os)

/-- A record decodes to an instruction when it passes every check and reads as that instruction's operands. -/
theorem decode_ok_iff : decode names r = .ok i ↔
    Parses r i.op i.operands ∧ ∀ o ∈ i.operands, o.known names = true := by
  constructor
  · intro hd
    obtain ⟨j, hp⟩ | hn := parses_or_not r
    · rw [hp.decode_eq] at hd
      split at hd
      · next hk => cases hd; exact ⟨hp, List.all_eq_true.1 hk⟩
      · cases hd
    · rw [decode_of_not_parses hn] at hd; cases hd
  · rintro ⟨hp, hk⟩
    rw [hp.decode_eq, if_pos (List.all_eq_true.2 hk)]

theorem decode_invalidInstruction_iff : decode names r = .error .invalidInstruction ↔ ∀ op os, ¬ Parses r op os := by
  refine ⟨fun hd op os hp => ?_, decode_of_not_parses⟩
  obtain ⟨i, rfl, rfl⟩ := hp.exists_instr
  rw [hp.decode_eq] at hd
  split at hd <;> cases hd

theorem decode_unknownRegister_iff : decode names r = .error .unknownRegister ↔
    ∃ op os, Parses r op os ∧ ∃ o ∈ os, o.known names = false := by
  constructor
  · intro hd
    obtain ⟨i, hp⟩ | hn := parses_or_not r
    · rw [hp.decode_eq] at hd
      split at hd
      · cases hd
      · next hk => exact ⟨_, _, hp, by simpa using hk⟩
    · rw [decode_of_not_parses hn] at hd; cases hd
  · rintro ⟨op, os, hp, o, ho, hk⟩
    obtain ⟨i, rfl, rfl⟩ := hp.exists_instr
    rw [hp.decode_eq, if_neg fun hall => by simp [List.all_eq_true.1 hall o ho] at hk]

theorem decode_error_cases {k : ErrorKind} (hd : decode names r = .error k) :
    k = .invalidInstruction ∨ k = .unknownRegister := by
  obtain ⟨i, hp⟩ | hn := parses_or_not r
  · rw [hp.decode_eq] at hd
    split at hd <;> cases hd
    exact .inr rfl
  · rw [decode_of_not_parses hn] at hd; cases hd; exact .inl rfl

end

/-! ## Decode and encode -/

/-- The encoder's record passes the checks and reads as the instruction's operands. -/
theorem encode_parses {i : Instr} (h : ∀ o ∈ i.operands, o.baseOk = true) : Parses (encode i) i.op i.operands where
  row := Op.ofMnemonic_mnemonic _
  count := operandTokens_length i
  tokens := by simpa [encode] using parseOperands_tokens h

/-- Settles O2: the encoder's record reads as the instruction's operands, and their names are known. -/
theorem decodeEncode : Obligations.DecodeEncode := by
  intro names i hw
  obtain ⟨hknown, hbase⟩ := Instr.wellFormed_iff.1 hw
  exact decode_ok_iff.2 ⟨encode_parses hbase, hknown⟩

/-- Settles O3: the names passed their check, and a base that was read holds no parenthesis. -/
theorem decodeYieldsWellFormed : Obligations.DecodeYieldsWellFormed := by
  intro names r i hd
  obtain ⟨hp, hknown⟩ := decode_ok_iff.1 hd
  exact ⟨Instr.wellFormed_iff.2 ⟨hknown, parseOperands_baseOk hp.tokens⟩, Op.ofMnemonic_eq hp.row, hp.count⟩

/-- Settles O4: `Parses` is the conjunction of the checks before the names. -/
theorem decodeErrorsExactly : Obligations.DecodeErrorsExactly := by
  intro names r
  refine ⟨decode_invalidInstruction_iff.trans ⟨fun h op hop hlen => ?_, fun h op os hp => ?_⟩,
    decode_unknownRegister_iff.trans ⟨?_, ?_⟩, fun k => decode_error_cases⟩
  · exact Option.eq_none_iff_forall_ne_some.2 fun os hos => h op os ⟨hop, hlen, hos⟩
  · have hnone := h op hp.row hp.count
    rw [hp.tokens] at hnone; cases hnone
  · rintro ⟨op, os, hp, hunknown⟩
    exact ⟨op, os, hp.row, hp.count, hp.tokens, hunknown⟩
  · rintro ⟨op, os, hop, hlen, hos, hunknown⟩
    exact ⟨op, os, ⟨hop, hlen, hos⟩, hunknown⟩

/-- Settles O5: the mnemonic of every row is one of the eight. -/
theorem unknownMnemonic : Obligations.UnknownMnemonic := by
  intro names r hm
  refine decode_of_not_parses fun op os hp => hm ?_
  rw [Op.ofMnemonic_eq hp.row]
  cases op <;> decide

theorem regOfToken_of_no_dollar {t : Text} (h : t.head? ≠ some '$') : regOfToken t = t := by
  unfold regOfToken
  split
  · exact absurd rfl h
  · rfl

/-- Settles O6: both tokens read as the same register, and no other check looks at the token. -/
theorem dollarIsOptional : Obligations.DollarIsOptional := by
  intro names op os k t hk ht hdollar
  have hread : parseOperand .reg ('$' :: t) = parseOperand .reg t := by
    simp [parseOperand, regOfToken_of_no_dollar hdollar]
  simp only [decode, List.length_set, Op.ofMnemonic_mnemonic, parseOperands_set hk ht hread]

/-- Settles O1: the eight records are evaluated. -/
theorem decodeSpecRecords : Obligations.DecodeSpecRecords := ⟨rfl, rfl, rfl, rfl, rfl, rfl, rfl, rfl⟩

theorem decodeTableWord_eq_some {nbits w : Nat} {i : Instr} (h : decodeTableWord nbits w = some i) :
    decode defaultRegNames (recOfWord nbits w) = .ok i := by
  unfold decodeTableWord at h
  split at h
  · next hd => cases h; exact hd
  · cases h

end Sys2Proof

namespace Sys2Proof.Machine

/-! ## A word's record in the run loop -/

/-- A step of a run is the meaning of the instruction its record decodes to (R89). -/
theorem step_of_decoded {s : State} {r : Rec} {i : Instr} (hr : s.inRun = true) (hf : fetch s = some r)
    (hd : decode s.config.regNames r = .ok i) : step s = exec i s := by
  simp only [step, hr, if_true, runLoop, hf, execute, hd]

theorem putRecord_getElem? (n : Nat) (r : Rec) (prog : List Rec) : (putRecord n r prog)[n]? = some r := by
  unfold putRecord
  split
  · next h => exact List.getElem?_set_self h
  · next h =>
    rw [List.getElem?_append_right (not_lt.1 h), List.getElem?_replicate, if_pos (by omega)]

@[simp] theorem fetch_withFetchWord (s : State) (nbits w : Nat) :
    fetch (s.withFetchWord nbits w) = some (recOfWord nbits w) := putRecord_getElem? ..

/-- Settles O9: the word's record stands at the pc of a run. -/
theorem fetchWordRuns : Obligations.FetchWordRuns := fun s nbits w _ hnames h =>
  step_of_decoded rfl (fetch_withFetchWord s nbits w)
    ((congrArg (decode · _) hnames).trans (decodeTableWord_eq_some h))

end Sys2Proof.Machine
end

section
/-! PROOFS. The engine (spec 40_engine.md): what a step serves (R87 to R89, R96, R98), how an instruction's end shows in
pc and STATUS in a run and outside one (R90 to R96), how a run ends (R93, R94), and the snapshot (R97). -/

namespace Sys2Proof.Machine

/-! ## What a step serves -/

theorem execute_of_decoded {s : State} {r : Rec} {i : Instr} (hd : decode s.config.regNames r = .ok i) :
    execute r s = exec i s := by
  simp only [execute, hd]

theorem execute_of_decode_error {s : State} {r : Rec} {k : ErrorKind} (hd : decode s.config.regNames r = .error k) :
    execute r s = fail k s := by
  simp only [execute, hd]

theorem step_inRun {s : State} {r : Rec} (hr : s.inRun = true) (hf : fetch s = some r) : step s = execute r s := by
  simp only [step, hr, if_true, runLoop, hf]

theorem step_runsOffEnd {s : State} (hr : s.inRun = true) (hf : fetch s = none) :
    step s = .next { s with status := .ranOffEnd } := by
  simp only [step, hr, if_true, runLoop, hf]

section
variable {s : State} {rest : List HostCall} (hr : s.inRun = false)
include hr

theorem step_outsideRun : step s = serveCall s := by simp [step, hr]

theorem step_start {p : List Rec} (hc : s.calls = .start p :: rest) : step s = start p { s with calls := rest } := by
  rw [step_outsideRun hr]
  simp only [serveCall, hc]

theorem step_executeSingle {r : Rec} (hc : s.calls = .executeSingle r :: rest) :
    step s = execute r { s with calls := rest } := by
  have hr' : State.inRun { s with calls := rest } = false := hr
  rw [step_outsideRun hr]
  simp [serveCall, hc, executeSingle, hr']

theorem step_idle (hc : s.calls = []) : step s = .fault .idle := by
  rw [step_outsideRun hr]
  simp only [serveCall, hc]

end

theorem start_ready {s : State} {p : List Rec} (hs : s.status = .ready) (hp : p.length ≤ maxProgLength) :
    start p s = .next { s with prog := p, status := .running } := by
  simp only [start, hs, if_true, hp]

theorem start_tooLong {s : State} {p : List Rec} (hs : s.status = .ready) (hp : ¬ p.length ≤ maxProgLength) :
    start p s = .refused .programTooLong := by
  simp only [start, hs, if_true, hp, if_false]

theorem start_notReady {s : State} (p : List Rec) (hs : s.status ≠ .ready) : start p s = .refused .startNotReady := by
  simp only [start, hs, if_false]

/-- Settles O32: the fetched record is executed, and a decode error is the failure entry. -/
theorem stepRunsDecoded : Obligations.StepRunsDecoded := by
  intro s r hr hf
  refine ⟨fun i hd => step_of_decoded hr hf hd, fun k hd => ⟨retire (.failed k) s, ?_, ?_⟩⟩
  · rw [step_inRun hr hf, execute_of_decode_error hd]
    rfl
  · rw [retire_failed_inRun k hr]

/-- Settles O33: nothing is fetched at or past the end. -/
theorem stepRunsOffEnd : Obligations.StepRunsOffEnd := fun _ hr hle => step_runsOffEnd hr (fetch_of_le hle)

/-- Settles O34: one clause per call. -/
theorem stepServesCalls : Obligations.StepServesCalls := by
  intro s rest hr
  refine ⟨fun p hc hs hp => ?_, fun p hc hs hp => ?_, fun p hc hs => ?_, fun r i hc hd => ?_, fun r k hc hd => ?_,
    step_idle hr⟩
  · rw [step_start hr hc]
    exact start_ready hs hp
  · rw [step_start hr hc]
    exact start_tooLong hs (Nat.not_le_of_gt hp)
  · rw [step_start hr hc]
    exact start_notReady p hs
  · rw [step_executeSingle hr hc]
    exact execute_of_decoded hd
  · rw [step_executeSingle hr hc, execute_of_decode_error (s := { s with calls := rest }) hd]
    exact failsWith_fail k _

/-! ## The ALU outside a run -/

/-- A well-formed instruction with a destination and no memory operand writes its destination and continues. -/
theorem exec_eq_writeResult {s : State} {i : Instr} (hw : i.wellFormed s.config.regNames = true)
    (hl : s.regs.length = s.config.regNames.length) (hd : i.dest? ≠ none) (hb : i.base? = none) :
    ∃ rd v, exec i s = writeResult rd v s := by
  have hregs : ∀ r ∈ i.regs, r ∈ s.config.regNames := by
    simp only [Instr.wellFormed, Bool.and_eq_true, List.all_eq_true, List.contains_iff_mem] at hw
    obtain ⟨hregs, -⟩ := hw
    exact hregs
  cases i with
  | li | add | addi | move | slt => exact ⟨_, _, requireRegs_of_mem hl hregs⟩
  | lw | sw => cases hb
  | syscall => exact absurd rfl hd

/-- Settles O19: the one register write, and Continue handed back. -/
theorem aluOutsideRun : Obligations.AluOutsideRun := by
  intro s i hw hl hd hb hr
  obtain ⟨rd, v, he⟩ := exec_eq_writeResult hw hl hd hb
  refine ⟨retire .continued (s.setReg rd v), he, ?_⟩
  rw [retire_single (s := s.setReg rd v) .continued hr]
  exact ⟨rfl, rfl, rfl⟩

/-! ## The end of an instruction, as pc and STATUS show it -/

/-- `t` is `s` after an end of an instruction with result `x`, as far as pc and STATUS go: before the result takes
effect pc stands, a run is active as before, and outside a run STATUS stands. -/
def EndsWith (x : Result) (s t : State) : Prop :=
  ∃ e, t = retire x e ∧ e.pc = s.pc ∧ e.inRun = s.inRun ∧ (s.inRun = false → e.status = s.status)

/-- Outside a run a line taken leaves STATUS (R96). -/
theorem takeLine_status_outsideRun (rest : List Text) {s : State} (hr : s.inRun = false) :
    (takeLine rest s).status = s.status := by
  simp [takeLine, hr]

section
variable {i : Instr} {r : Rec} {s t : State}

/-- An instruction begins a wait, or it ends with a result. -/
theorem ExecShape.waits_or_ends (h : ExecShape i s t) :
    (s.status = .running ∧ s.input = [] ∧ t = { s with status := .waitInput }) ∨ ∃ x, EndsWith x s t := by
  cases h with
  | waits _ _ _ hl hs => exact .inl ⟨hs, hl, rfl⟩
  | failed | wrote | stored | printed | exited => exact .inr ⟨_, _, rfl, rfl, rfl, fun _ => rfl⟩
  | readLine _ _ _ rest | badLine _ _ _ rest =>
    exact .inr ⟨_, _, rfl, rfl, takeLine_inRun rest s, takeLine_status_outsideRun rest⟩

/-- So does the execution of a record, a decode error included. -/
theorem ExecuteShape.waits_or_ends (h : ExecuteShape r s t) :
    (s.status = .running ∧ s.input = [] ∧ t = { s with status := .waitInput }) ∨ ∃ x, EndsWith x s t := by
  cases h with
  | decodeError => exact .inr ⟨_, _, rfl, rfl, rfl, fun _ => rfl⟩
  | executed _ _ _ _ hx => exact hx.waits_or_ends

/-- Outside a run pc and STATUS stay and the result is handed back (R96). -/
theorem ExecuteShape.outsideRun (h : ExecuteShape r s t) (hr : s.inRun = false) :
    t.pc = s.pc ∧ t.status = s.status ∧ ∃ x, t.singleResult = some x := by
  obtain ⟨hs, -⟩ | ⟨x, e, rfl, hpc, hrun, hs⟩ := h.waits_or_ends
  · simp [State.inRun, hs] at hr
  · rw [retire_single x (hrun.trans hr)]
    exact ⟨hpc, hs hr, x, rfl⟩

/-- In a run Continue advances pc and the run goes on; the other results end it with pc kept (R90 to R92). -/
theorem EndsWith.inRun {x : Result} (h : EndsWith x s t) (hr : s.inRun = true) :
    (t.pc = s.pc + 1 ∧ t.inRun = true) ∨ (t.pc = s.pc ∧ t.ended = true) := by
  obtain ⟨e, rfl, hpc, hrun, -⟩ := h
  have he : e.inRun = true := hrun.trans hr
  cases x with
  | continued =>
    rw [retire_continued_inRun he]
    exact .inl ⟨congrArg (· + 1) hpc, he⟩
  | halted =>
    rw [retire_halted_inRun he]
    exact .inr ⟨hpc, rfl⟩
  | failed k =>
    rw [retire_failed_inRun k he]
    exact .inr ⟨hpc, rfl⟩

/-- In a run that meets the invariant, WAIT_INPUT stands after a record only where its wait has just begun, at the same
pc: a wait that stood before was inside the same `syscall` 5, which the step took up again (R110). -/
theorem ExecuteShape.pc_of_waitInput (h : ExecuteShape r s t) (hs : StateInv s) (hf : fetch s = some r)
    (hw : t.status = .waitInput) : t.pc = s.pc := by
  cases h with
  | decodeError => cases (retire_status_waitInput hw).1
  | executed i hd _ _ hx =>
    obtain ⟨ht, -⟩ | ⟨hwait, hno⟩ := hx.waitInput_cases hw
    · rw [ht]
    · obtain ⟨⟨r', hf', hd'⟩, h5⟩ := hs.waiting hwait
      obtain rfl : r = r' := Option.some.inj (hf.symm.trans hf')
      exact absurd ⟨Except.ok.inj (hd.symm.trans hd'), h5⟩ hno

/-- What a step of a run comes to: the run ends with pc kept, the engine begins to wait for a line that has not come, or
the record at pc has completed and the run goes on behind it. -/
theorem StepShape.inRun_cases (h : StepShape s t) (hs : StateInv s) (hr : s.inRun = true) :
    (t.pc = s.pc ∧ t.ended = true) ∨
    (s.input = [] ∧ t = { s with status := .waitInput }) ∨
    (s.pc.toNat < s.prog.length ∧ t.pc = s.pc + 1 ∧ t.status = .running) := by
  cases h with
  | started hn | single hn => exact absurd hr (by simp [hn])
  | ranOff => exact .inl ⟨rfl, rfl⟩
  | ran _ r hf _ hx =>
    obtain ⟨-, hl, ht⟩ | ⟨x, hend⟩ := hx.waits_or_ends
    · exact .inr (.inl ⟨hl, ht⟩)
    obtain ⟨hpc, hrun⟩ | hend := hend.inRun hr
    · have hlt := fetch_some hf
      obtain hst | hst := (inRun_iff t).1 hrun
      · exact .inr (.inr ⟨hlt, hpc, hst⟩)
      · have hnext := pc_succ hs hlt
        rw [← hpc, hx.pc_of_waitInput hs hf hst] at hnext
        omega
    · exact .inl hend

/-- Outside a run no step writes pc, and none but a `start`, which READY alone accepts, writes STATUS or PROG (R87, R96,
R98). -/
theorem StepShape.outsideRun (h : StepShape s t) (hr : s.inRun = false) :
    t.pc = s.pc ∧ (s.status ≠ .ready → t.status = s.status ∧ t.prog = s.prog) := by
  cases h with
  | ranOff hn | ran hn => exact absurd hn (by simp [hr])
  | started _ _ _ _ hs => exact ⟨rfl, fun hne => absurd hs hne⟩
  | single _ _ _ _ _ hx =>
    obtain ⟨hpc, hst, -⟩ := hx.outsideRun hr
    obtain ⟨-, hprog, -⟩ := hx.sameLaunch
    exact ⟨hpc, fun _ => ⟨hst, hprog⟩⟩

end

/-- Settles O35: the execution of the record outside a run. -/
theorem singleKeepsPcAndStatus : Obligations.SingleKeepsPcAndStatus := by
  refine fun s r => ⟨fun hr => ?_, fun hr t hs h => ?_⟩
  · simp only [executeSingle, hr, if_true]
  · obtain ⟨-, hx⟩ := executeSingle_next hs.memOk h
    exact hx.outsideRun hr

/-- Settles O40: pc moves only where a record has completed and the run goes on. -/
theorem pcMovesByOne : Obligations.PcMovesByOne := by
  intro s t hs h
  have hx := step_next hs.memOk h
  cases hr : s.inRun with
  | false =>
    obtain ⟨hpc, -⟩ := hx.outsideRun hr
    exact .inl hpc
  | true =>
    obtain ⟨hpc, -⟩ | ⟨-, rfl⟩ | ⟨hlt, hpc, hst⟩ := hx.inRun_cases hs hr
    · exact .inl hpc
    · exact .inl rfl
    · exact .inr ⟨rfl, hlt, hpc ▸ pc_succ hs hlt, hst⟩

/-- In an end state no run is active, and STATE is not READY (R93). -/
theorem State.not_active_of_ended {s : State} (h : s.ended = true) : s.inRun = false ∧ s.status ≠ .ready := by
  cases hs : s.status with
  | exited | ranOffEnd | failed => simp [State.inRun, hs]
  | ready | running | waitInput => simp [State.ended, hs] at h

/-- Settles O41: in an end state a step is an `executeSingle` or a refused `start`. -/
theorem endedStaysEnded : Obligations.EndedStaysEnded := by
  intro s hs hend
  obtain ⟨hr, hne⟩ := State.not_active_of_ended hend
  refine ⟨fun t h => ?_, fun p rest hc => ?_⟩
  · obtain ⟨hpc, hkeep⟩ := (step_next hs.memOk h).outsideRun hr
    obtain ⟨hst, hprog⟩ := hkeep hne
    exact ⟨hst, hpc, hprog⟩
  · rw [step_start hr hc]
    exact start_notReady p hne

/-! ## The same instruction in a run and in `executeSingle` -/

/-- The block `s` in READY, where no run is active. -/
def State.inReady (s : State) : State := { s with status := .ready }

@[simp] theorem State.inReady_config (s : State) : s.inReady.config = s.config := rfl
@[simp] theorem State.inReady_input (s : State) : s.inReady.input = s.input := rfl
@[simp] theorem State.inReady_block (s : State) (index : Nat) : s.inReady.block index = s.block index := rfl
@[simp] theorem State.inReady_getReg (s : State) (r : RegName) : s.inReady.getReg r = s.getReg r := rfl
@[simp] theorem effAddr_inReady (s : State) (r : RegName) (off : Int) :
    effAddr s.inReady r off = effAddr s r off := rfl
@[simp] theorem State.inReady_hasReg (s : State) : s.inReady.hasReg = s.hasReg := rfl

/-! ### The memory hierarchy does not read STATUS -/

section
variable (g : CacheGeometry) (s : State) (a : Int)

theorem inBounds_inReady : inBounds s.inReady a = inBounds s a := rfl

theorem mainRead_inReady (n : Nat) : mainRead s.inReady a n = mainRead s a n := rfl

theorem mainWrite_inReady (bytes : List Byte) :
    mainWrite s.inReady a bytes = (mainWrite s a bytes).map State.inReady := by
  rw [mainWrite, mainWrite, apply_ite (Except.map State.inReady)]
  rfl

theorem writeBackVictim_inReady (index : Nat) :
    writeBackVictim g s.inReady index = (writeBackVictim g s index).map State.inReady := by
  simp only [writeBackVictim, evict, State.inReady_block, mainWrite_inReady]
  split <;> rfl

theorem fill_inReady (index tag addr : Nat) :
    fill g s.inReady index tag addr = (fill g s index tag addr).map State.inReady := by
  simp only [fill, mainRead_inReady]
  split <;> rfl

theorem makeResident_inReady (addr : Nat) :
    makeResident g s.inReady addr = (makeResident g s addr).map State.inReady := by
  simp only [makeResident, State.inReady_block, State.inReady_config, writeBackVictim_inReady]
  split
  · rfl
  · cases writeBackVictim g s (decompose s.config.addrBits g addr).index with
    | error k => rfl
    | ok s' => exact fill_inReady ..

theorem cacheRead_inReady (addr : Nat) :
    cacheRead g s.inReady addr = (cacheRead g s addr).map (Prod.map id State.inReady) := by
  simp only [cacheRead, State.inReady_config, makeResident_inReady]
  split
  · rfl
  · cases makeResident g s addr <;> rfl

theorem cacheWrite_inReady (addr : Nat) (w : List Byte) :
    cacheWrite g s.inReady addr w = (cacheWrite g s addr w).map State.inReady := by
  simp only [cacheWrite, State.inReady_config, makeResident_inReady]
  split
  · rfl
  · cases makeResident g s addr <;> rfl

theorem memRead_inReady : memRead s.inReady a = (memRead s a).map (Prod.map id State.inReady) := by
  simp only [memRead, State.inReady_config, inBounds_inReady, mainRead_inReady, cacheRead_inReady]
  split
  · split
    · split <;> rfl
    · rfl
  · rfl

theorem memWrite_inReady (bytes : List Byte) :
    memWrite s.inReady a bytes = (memWrite s a bytes).map State.inReady := by
  simp only [memWrite, State.inReady_config, inBounds_inReady, mainWrite_inReady, cacheWrite_inReady]
  split
  · split <;> rfl
  · rfl

end

/-- A read that succeeds changes the memory side alone. -/
theorem eq_withMemory_of_memRead_ok {s t : State} {a : Int} {bytes : List Byte} (hm : MemOk s)
    (h : memRead s a = .ok (bytes, t)) : ∃ m bl, t = s.withMemory m bl := by
  obtain ⟨hi, hb⟩ := inside_of_memRead_ok hm h
  obtain ⟨m, bl, hr, -, -⟩ := memRead_inside hm hi hb
  obtain ⟨-, rfl⟩ := Prod.mk.inj (Except.ok.inj (hr.symm.trans h))
  exact ⟨m, bl, rfl⟩

/-- So does a write. -/
theorem eq_withMemory_of_memWrite_ok {s t : State} {a : Int} {w : Word} (hm : MemOk s)
    (h : memWrite s a (le32 w) = .ok t) : ∃ m bl, t = s.withMemory m bl := by
  obtain ⟨hi, hb⟩ := inside_of_memWrite_ok hm h
  obtain ⟨m, bl, hr, -, -⟩ := memWrite_inside hm (le32_length w) hi hb
  exact ⟨m, bl, (Except.ok.inj (hr.symm.trans h)).symm⟩

/-! ### Each meaning ends alike -/

/-- The outcome in the run `s` and the outcome in READY: the same result, after effects that differ in STATUS alone; or
the run begins a wait. -/
inductive EndsAlike (s : State) : Out → Out → Prop where
  | ended (x : Result) (e : State) (hs : e.status = .running) (hpc : e.pc = s.pc) :
      EndsAlike s (.next (retire x e)) (.next (retire x e.inReady))
  | waits (t : State) (ht : t.status = .waitInput) (o : Out) : EndsAlike s (.next t) o

section
variable {s : State} (hs : s.status = .running)
include hs

theorem fail_endsAlike (k : ErrorKind) : EndsAlike s (fail k s) (fail k s.inReady) := .ended _ s hs rfl

theorem writeResult_endsAlike (rd : RegName) (v : Int) :
    EndsAlike s (writeResult rd v s) (writeResult rd v s.inReady) :=
  .ended _ (s.setReg rd v) hs rfl

theorem requireRegs_endsAlike (rs : List RegName) {x y : Out} (h : EndsAlike s x y) :
    EndsAlike s (requireRegs rs s x) (requireRegs rs s.inReady y) := by
  by_cases hr : rs.all s.hasReg = true
  · rw [requireRegs, requireRegs, if_pos hr, if_pos (show rs.all s.inReady.hasReg = true from hr)]
    exact h
  · rw [requireRegs, requireRegs, if_neg hr, if_neg (show ¬ rs.all s.inReady.hasReg = true from hr)]
    exact fail_endsAlike hs _

theorem execLw_endsAlike (hm : MemOk s) (rd : RegName) (off : Int) (rs : RegName) :
    EndsAlike s (execLw rd off rs s) (execLw rd off rs s.inReady) := by
  refine requireRegs_endsAlike hs _ ?_
  rw [effAddr_inReady, memRead_inReady]
  cases h : memRead s (effAddr s rs off) with
  | error k => exact fail_endsAlike hs k
  | ok p =>
    obtain ⟨bytes, t⟩ := p
    obtain ⟨m, bl, rfl⟩ := eq_withMemory_of_memRead_ok hm h
    exact .ended _ ((s.withMemory m bl).setReg rd _) hs rfl

theorem execSw_endsAlike (hm : MemOk s) (rs : RegName) (off : Int) (rt : RegName) :
    EndsAlike s (execSw rs off rt s) (execSw rs off rt s.inReady) := by
  refine requireRegs_endsAlike hs _ ?_
  rw [effAddr_inReady, State.inReady_getReg, memWrite_inReady]
  cases h : memWrite s (effAddr s rt off) (le32 (s.getReg rs)) with
  | error k => exact fail_endsAlike hs k
  | ok t =>
    obtain ⟨m, bl, rfl⟩ := eq_withMemory_of_memWrite_ok hm h
    exact .ended _ (s.withMemory m bl) hs rfl

theorem takeLine_inReady (rest : List Text) : takeLine rest s.inReady = (takeLine rest s).inReady := by
  simp [takeLine, State.inReady, State.inRun, hs]

theorem sysReadInt_endsAlike : EndsAlike s (sysReadInt s) (sysReadInt s.inReady) := by
  simp only [sysReadInt, State.inReady_input, takeLine_inReady hs]
  split
  · rw [awaitLine, if_pos hs]
    exact .waits _ rfl _
  · next line rest _ =>
    have hrun : (takeLine rest s).status = .running := by simp [takeLine, State.inRun, hs]
    split
    · exact .ended _ (takeLine rest s) hrun rfl
    · exact .ended _ ((takeLine rest s).setReg regV0 _) hrun rfl

theorem execSyscall_endsAlike : EndsAlike s (execSyscall s) (execSyscall s.inReady) := by
  refine requireRegs_endsAlike hs _ ?_
  rw [State.inReady_getReg]
  split
  · exact requireRegs_endsAlike hs _ (.ended .continued { s with out := s.out ++ [sint32 (s.getReg regA0)] } hs rfl)
  · split
    · exact sysReadInt_endsAlike hs
    · split
      · exact .ended .halted s hs rfl
      · exact fail_endsAlike hs _

theorem exec_endsAlike (hm : MemOk s) (i : Instr) : EndsAlike s (exec i s) (exec i s.inReady) := by
  cases i with
  | li | add | addi | move | slt => exact requireRegs_endsAlike hs _ (writeResult_endsAlike hs ..)
  | lw => exact execLw_endsAlike hs hm ..
  | sw => exact execSw_endsAlike hs hm ..
  | syscall => exact execSyscall_endsAlike hs

end

/-- How a result shows in a run (R90 to R92). -/
theorem retire_running {e : State} (hs : e.status = .running) (x : Result) :
    (x = .continued ↔ (retire x e).status = .running) ∧ (x = .continued → (retire x e).pc = e.pc + 1) ∧
    (x = .halted ↔ (retire x e).status = .exited) ∧ ∀ k, x = .failed k ↔ (retire x e).status = .failed k := by
  have hr : e.inRun = true := (inRun_iff e).2 (.inl hs)
  cases x with
  | continued => simp [retire_continued_inRun hr, hs]
  | halted => simp [retire_halted_inRun hr]
  | failed k => simp [retire_failed_inRun k hr]

/-- Settles O36: the two executions end alike, and the result shows in the run. -/
theorem singleSameSemantics : Obligations.SingleSameSemantics := by
  intro s t i hs hrun he hw
  have h := exec_endsAlike hrun hs.memOk i
  rw [he] at h
  generalize ho : exec i s.inReady = o at h
  cases h with
  | waits _ ht => exact absurd ht hw
  | ended x e hst hpc =>
    obtain ⟨hcont, hnext, hhalt, hfail⟩ := retire_running hst x
    refine ⟨_, x, ho, ?_⟩
    rw [retire_single (s := e.inReady) x rfl]
    exact ⟨rfl, (retire_regs x e).symm, (retire_mem x e).symm, (retire_blocks x e).symm, (retire_out x e).symm,
      (retire_input x e).symm, hpc, hcont, fun hx => hpc ▸ hnext hx, hhalt, hfail⟩

/-! ## A failing step -/

/-- STATE becomes FAILED in a run only by a result Failed (R92). -/
theorem eq_failed_of_retire {x : Result} {e : State} {k : ErrorKind} (h : (retire x e).status = .failed k)
    (hr : e.inRun = true) : x = .failed k := by
  cases x with
  | continued =>
    rw [retire_continued_inRun hr] at h
    have hs : e.status = .failed k := h
    simp [State.inRun, hs] at hr
  | halted =>
    rw [retire_halted_inRun hr] at h
    cases h
  | failed k' =>
    rw [retire_failed_inRun k' hr] at h
    cases h
    rfl

/-- `t` is `s` in FAILED with `k` and nothing else changed, save that the line of an InputFormatError is consumed (R92,
R95). -/
def FailedOnly (k : ErrorKind) (s t : State) : Prop :=
  t = { s with status := .failed k, input := t.input } ∧
    (t.input = s.input ∨ (k = .inputFormatError ∧ ∃ line, s.input = line :: t.input))

theorem FailedOnly.of_retire {s : State} {k : ErrorKind} (hr : s.inRun = true) :
    FailedOnly k s (retire (.failed k) s) := by
  rw [retire_failed_inRun k hr]
  exact ⟨rfl, .inl rfl⟩

section
variable {i : Instr} {r : Rec} {s t : State} {k : ErrorKind}

theorem ExecShape.failedOnly (h : ExecShape i s t) (hr : s.inRun = true) (hk : t.status = .failed k) :
    FailedOnly k s t := by
  cases h with
  | failed =>
    cases eq_failed_of_retire hk hr
    exact .of_retire hr
  | badLine _ _ line rest hl =>
    have hr' : (takeLine rest s).inRun = true := (takeLine_inRun rest s).trans hr
    cases eq_failed_of_retire hk hr'
    rw [retire_failed_inRun _ hr']
    exact ⟨rfl, .inr ⟨rfl, line, hl⟩⟩
  | wrote | stored | printed | exited => cases eq_failed_of_retire hk hr
  | readLine _ _ _ rest => cases eq_failed_of_retire hk ((takeLine_inRun rest s).trans hr)
  | waits => cases hk

theorem ExecuteShape.failedOnly (h : ExecuteShape r s t) (hr : s.inRun = true) (hk : t.status = .failed k) :
    FailedOnly k s t := by
  cases h with
  | decodeError =>
    cases eq_failed_of_retire hk hr
    exact .of_retire hr
  | executed _ _ _ _ hx => exact hx.failedOnly hr hk

end

/-- Settles O42: the failing step is the execution of the fetched record. -/
theorem failureIsAtomic : Obligations.FailureIsAtomic := by
  intro s t k hs hr h hk
  cases step_next hs.memOk h with
  | ranOff => cases hk
  | ran _ _ _ _ hx => exact hx.failedOnly hr hk
  | started hn | single hn => exact absurd hr (by simp [hn])

/-! ## The end of a run -/

/-- A run takes its next step unless it is stuck in WAIT_INPUT (R110). -/
theorem step_next_or_stuck {s : State} (hr : s.inRun = true) : (∃ t, step s = .next t) ∨ s.stuck = true := by
  cases hf : fetch s with
  | none => exact .inl ⟨_, step_runsOffEnd hr hf⟩
  | some r =>
    rw [step_inRun hr hf]
    cases hd : decode s.config.regNames r with
    | error k => exact .inl ⟨_, execute_of_decode_error hd⟩
    | ok i =>
      rw [execute_of_decoded hd]
      obtain h | ⟨-, -, -, hl, hs⟩ := exec_stops (i := i) (s := s)
      · exact .inl h
      · have hwait : s.status = .waitInput := ((inRun_iff s).1 hr).resolve_left hs
        exact .inr (by simp [State.stuck, hwait, hl])

theorem run_succ {s t : State} (h : step s = .next t) (k : Nat) :
    Host.Core.run Sys2Proof.core (k + 1) s = Host.Core.run Sys2Proof.core k t := by
  have hstep : Host.Core.step Sys2Proof.core s = .next t := h
  simp only [Host.Core.run, hstep]

/-- A run with fewer than `n` records from pc on ends within `n` steps, or comes to wait for a line that has not come:
each completed record leaves one fewer (R94). -/
theorem run_ends_or_stuck : ∀ {n : Nat} {s : State}, StateInv s → s.inRun = true → s.prog.length - s.pc.toNat < n →
    ∃ k t, k ≤ n ∧ Host.Core.run Sys2Proof.core k s = .next t ∧ (t.ended = true ∨ t.stuck = true)
  | n + 1, s, hs, hr, hn => by
    obtain ⟨t, ht⟩ | hstuck := step_next_or_stuck hr
    · have hx := step_next hs.memOk ht
      obtain ⟨-, hend⟩ | ⟨hl, rfl⟩ | ⟨hlt, hpc, hst⟩ := hx.inRun_cases hs hr
      · exact ⟨1, t, by omega, run_succ ht 0, .inl hend⟩
      · exact ⟨1, _, by omega, run_succ ht 0, .inr (by simp [State.stuck, hl])⟩
      · obtain ⟨-, hprog, -⟩ := hx.sameLaunch hr
        have hleft : t.prog.length - t.pc.toNat < n := by
          rw [hprog, hpc, pc_succ hs hlt]
          omega
        obtain ⟨k, u, hk, hrun, hu⟩ := run_ends_or_stuck (hx.stateInv hs) ((inRun_iff t).2 (.inl hst)) hleft
        exact ⟨k + 1, u, by omega, (run_succ ht k).trans hrun, hu⟩
    · exact ⟨0, s, by omega, rfl, .inr hstuck⟩

/-- Settles O47: fewer than `L - pc + 1` records are left. -/
theorem runEnds : Obligations.RunEnds := fun _ hs hr => run_ends_or_stuck hs hr (Nat.lt_succ_self _)

/-! ## The snapshot -/

/-- Looking a name up among the pairs of names and values is the register read (R25). -/
theorem lookup_zip : ∀ (ns : List RegName) (ws : List Word) (r : RegName), (ns.zip ws).lookup r = lookupReg ns ws r
  | [], _, _ => rfl
  | _ :: _, [], _ => rfl
  | n :: ns, w :: ws, r => by
    simp only [List.zip_cons_cons, List.lookup_cons, lookupReg, lookup_zip ns ws r]
    by_cases h : n = r
    · simp [h]
    · simp [h, beq_false_of_ne (Ne.symm h)]

/-- Settles O57: the register pairs by `lookup_zip`, Main Memory by its bytes. -/
theorem dumpShowsState : Obligations.DumpShowsState := by
  intro s _
  refine ⟨fun r => lookup_zip .., rfl, rfl, Memory.readBytes_length .., fun a ha => ?_, rfl⟩
  simp only [dump, Memory.readBytes_getElem?, ha, if_true, Nat.zero_add]

end Sys2Proof.Machine
end

section
/-! PROOFS. The integer ALU and the moves (spec 41_alu.md): each of the five instructions is one register write that
ends with Continue (R99 to R103), and what such a write changes and leaves (R26, R90, R95). -/

namespace Sys2Proof.Machine

/-! ## What a register write changes and leaves -/

theorem Advanced.continuesRun {s t : State} (h : Advanced s t) : ContinuesRun s t := by
  intro hr
  rwa [Advanced, if_pos hr] at h

/-- Continue, after effects that leave pc, STATUS and the result handed back (R90, R96). -/
theorem retire_continued_advanced {s e : State} (hpc : e.pc = s.pc) (hs : e.status = s.status)
    (hx : e.singleResult = s.singleResult) : Advanced s (retire .continued e) := by
  have hrun : e.inRun = s.inRun := inRun_congr hs
  cases hr : s.inRun with
  | true =>
    rw [Advanced, if_pos hr, retire_continued_inRun (hrun.trans hr)]
    exact ⟨congrArg (· + 1) hpc, hs, hx⟩
  | false =>
    rw [Advanced, if_neg (by simp [hr]), retire_single _ (hrun.trans hr)]
    exact ⟨hpc, hs, rfl⟩

/-- The end of an instruction that wrote `rd` leaves the rest of the architectural state (R26). -/
theorem retire_setReg_onlyReg (x : Result) (rd : RegName) (v : Int) (s : State) :
    OnlyReg rd s (retire x (s.setReg rd v)) := by
  refine ⟨fun r hne => ?_, retire_mem .., retire_blocks .., fun a _ => view_retire .., retire_out .., retire_input ..,
    retire_config .., retire_prog .., retire_calls ..⟩
  rw [retire_readReg, State.readReg_setReg_ne v hne]

/-- The outcome is a next state with `w` in `rd` and nothing else changed but by the advance of Continue. -/
def WritesOnly (rd : RegName) (w : Word) (s : State) (o : Out) : Prop :=
  ∃ t, o = .next t ∧ t.readReg rd = some w ∧ OnlyReg rd s t ∧ Advanced s t

/-- The part of `WritesOnly` about a run. -/
theorem WritesOnly.continuesRun {rd : RegName} {w : Word} {s : State} {o : Out} (h : WritesOnly rd w s o) :
    ∃ t, o = .next t ∧ t.readReg rd = some w ∧ OnlyReg rd s t ∧ ContinuesRun s t := by
  obtain ⟨t, ho, hread, honly, hadv⟩ := h
  exact ⟨t, ho, hread, honly, hadv.continuesRun⟩

/-- What every instruction of 41_alu.md comes to: `rd` holds the result mod 2^32 (R26). -/
theorem writeResult_writesOnly {s : State} {rd : RegName} (hl : s.regs.length = s.config.regNames.length)
    (hd : rd ∈ s.config.regNames) (v : Int) : WritesOnly rd (trunc32 v) s (writeResult rd v s) := by
  refine ⟨retire .continued (s.setReg rd v), rfl, ?_, retire_setReg_onlyReg .., retire_continued_advanced rfl rfl rfl⟩
  rw [retire_readReg, State.readReg_setReg_same v ((State.hasReg_iff hl rd).2 hd)]

/-- Comparing the signed readings is the signed comparison of the words (R103, decision D4). -/
theorem trunc32_signed_less (a b : Word) :
    trunc32 (if sint32 a < sint32 b then 1 else 0) = if a.slt b then 1 else 0 := by
  have hless : a.slt b = true ↔ sint32 a < sint32 b := BitVec.slt_iff_toInt_lt
  simp only [hless, apply_ite trunc32]
  rfl

/-! ## The value each instruction writes -/

section
variable {s : State} {rd rs rt : RegName} {a b : Word}

/-- A register that reads as a word is one of REG_NAMES (R25). -/
theorem mem_regNames_of_readReg (hl : s.regs.length = s.config.regNames.length) (h : s.readReg rs = some a) :
    rs ∈ s.config.regNames :=
  (State.hasReg_iff hl rs).1 (Option.isSome_of_eq_some h)

variable (hl : s.regs.length = s.config.regNames.length) (hd : rd ∈ s.config.regNames)
include hl hd

/-- R99. -/
theorem exec_li (imm : Int) : exec (.li rd imm) s = writeResult rd imm s :=
  requireRegs_of_mem hl (by simp [hd])

variable (ha : s.readReg rs = some a)
include ha

theorem mem_regNames_of_operand : ∀ r ∈ [rd, rs], r ∈ s.config.regNames := by
  simp [hd, mem_regNames_of_readReg hl ha]

/-- R101. -/
theorem exec_addi (imm : Int) : exec (.addi rd rs imm) s = writeResult rd (sint32 a + imm) s := by
  simp only [exec, execAddi, requireRegs_of_mem hl (mem_regNames_of_operand hl hd ha), getReg_of_readReg ha]

/-- R102. -/
theorem exec_move : exec (.move rd rs) s = writeResult rd (sint32 a) s := by
  simp only [exec, execMove, requireRegs_of_mem hl (mem_regNames_of_operand hl hd ha), getReg_of_readReg ha]

variable (hb : s.readReg rt = some b)
include hb

theorem mem_regNames_of_operands : ∀ r ∈ [rd, rs, rt], r ∈ s.config.regNames := by
  simp [hd, mem_regNames_of_readReg hl ha, mem_regNames_of_readReg hl hb]

/-- R100. -/
theorem exec_add : exec (.add rd rs rt) s = writeResult rd (sint32 a + sint32 b) s := by
  simp only [exec, execAdd, requireRegs_of_mem hl (mem_regNames_of_operands hl hd ha hb), getReg_of_readReg ha,
    getReg_of_readReg hb]

/-- R103. -/
theorem exec_slt : exec (.slt rd rs rt) s = writeResult rd (if sint32 a < sint32 b then 1 else 0) s := by
  simp only [exec, execSlt, requireRegs_of_mem hl (mem_regNames_of_operands hl hd ha hb), getReg_of_readReg ha,
    getReg_of_readReg hb]

end

/-! ## The obligations -/

/-- Settles O15: `trunc32` of the immediate is its value mod 2^32. -/
theorem liResult : Obligations.LiResult := by
  intro s rd imm hl hd
  rw [exec_li hl hd]
  exact (writeResult_writesOnly hl hd imm).continuesRun

/-- Settles O16: the sum of the signed readings truncates to the sum of the words. -/
theorem addResult : Obligations.AddResult := by
  intro s rd rs rt a b hl hd ha hb
  rw [exec_add hl hd ha hb, ← trunc32_add_sint32]
  exact (writeResult_writesOnly hl hd _).continuesRun

/-- Settles O17: likewise, with an immediate that is not reduced before the sum. -/
theorem addiResult : Obligations.AddiResult := by
  intro s rd rs imm a hl hd ha
  rw [exec_addi hl hd ha, ← trunc32_sint32_add]
  exact (writeResult_writesOnly hl hd _).continuesRun

/-- Settles O18: truncation gives back the pattern that was read signed. -/
theorem moveResult : Obligations.MoveResult := by
  intro s rd rs a hl hd ha
  have h := (writeResult_writesOnly hl hd (sint32 a)).continuesRun
  rwa [trunc32_sint32, ← exec_move hl hd ha] at h

/-- Settles O20: the comparison of the signed readings, in a run and outside one. -/
theorem sltResult : Obligations.SltResult := by
  intro s rd rs rt a b hl hd ha hb
  rw [exec_slt hl hd ha hb, ← trunc32_signed_less]
  exact writeResult_writesOnly hl hd _

end Sys2Proof.Machine
end

section
/-! PROOFS. Load and store (spec 42_loadstore.md) on a word inside memory and, with the Cache, inside one block: each
is one memory access at the effective address (R107), and what it leaves to see in the coherent view (R66). -/

namespace Sys2Proof.Machine

section
variable {s : State} {r base : RegName} {off : Int}

/-- R105: a register write of the view's word, after what the hierarchy did without changing the view. -/
theorem exec_lw (hs : StateInv s) (hr : r ∈ s.config.regNames) (hbase : base ∈ s.config.regNames)
    (hi : s.wordInside (effAddr s base off)) (hb : s.wordInBlock (effAddr s base off)) :
    ∃ m bl, exec (.lw r off base) s =
        writeResult r (sint32 (viewWord s (effAddr s base off).toNat)) (s.withMemory m bl) ∧
      SameMemory s (s.withMemory m bl) := by
  obtain ⟨m, bl, hread, -, hsame⟩ := memRead_inside hs.memOk hi hb
  refine ⟨m, bl, ?_, hsame⟩
  simp only [exec, execLw, requireRegs_of_mem hs.regsTotal (rs := [r, base]) (by simp [hr, hbase]), hread,
    unle32_viewBytes]

/-- R106: Continue after the engine's write of the register's bytes. -/
theorem exec_sw {w : Word} {t : State} (hs : StateInv s) (hr : s.readReg r = some w)
    (hbase : base ∈ s.config.regNames) (hwrite : memWrite s (effAddr s base off) (le32 w) = .ok t) :
    exec (.sw r off base) s = complete t := by
  have hregs : ∀ x ∈ [r, base], x ∈ s.config.regNames := by
    simp [mem_regNames_of_readReg hs.regsTotal hr, hbase]
  simp only [exec, execSw, requireRegs_of_mem hs.regsTotal hregs, getReg_of_readReg hr, hwrite]

end

/-- The view's word where a word was written is that word: the read after the write returns both (R44, R66). -/
theorem viewWord_of_memWrite {s t : State} {a : Int} {w : Word} (hs : StateInv s) (ht : MemOk t)
    (h : memWrite s a (le32 w) = .ok t) : viewWord t a.toNat = w := by
  obtain ⟨u, hwritten⟩ := readAfterWrite s t a w hs h
  obtain ⟨hi, hb⟩ := inside_of_memRead_ok ht hwritten
  obtain ⟨m, bl, hread, -, -⟩ := memRead_inside ht hi hb
  obtain ⟨hbytes, -⟩ := Prod.mk.inj (Except.ok.inj (hread.symm.trans hwritten))
  rw [← unle32_viewBytes, hbytes, unle32_le32]

/-- The end of an instruction leaves the view's words. -/
theorem viewWord_retire (x : Result) (s : State) (a : Nat) : viewWord (retire x s) a = viewWord s a := by
  simp only [viewWord, view_retire]

/-- Settles O21: the register write is made on a state that differs from `s` in Main Memory and the Cache alone, under
the same view. -/
theorem lwResult : Obligations.LwResult := by
  intro s rd rs off hs hd hrs hi hb
  obtain ⟨m, bl, hexec, hsame⟩ := exec_lw hs hd hrs hi hb
  obtain ⟨t, ht, hread, ⟨hregs, -, -, hview, hout, hinput, hlaunch⟩, hadv⟩ :=
    writeResult_writesOnly (s := s.withMemory m bl) hs.regsTotal hd (sint32 (viewWord s (effAddr s rs off).toNat))
  rw [trunc32_sint32] at hread
  exact ⟨t, hexec.trans ht, hread, hregs, fun a ha => (hview a ha).trans (hsame a ha), hout, hinput, hlaunch, hadv⟩

/-- Settles O22: the write changes the view at its four addresses alone, and no register. -/
theorem swResult : Obligations.SwResult := by
  intro s rs rt off w hs hrs hrt hi hb
  obtain ⟨m, bl, hwrite, hok, hview⟩ := memWrite_inside hs.memOk (le32_length w) hi hb
  refine ⟨retire .continued (s.withMemory m bl), exec_sw hs hrs hrt hwrite, ?_, fun a ha hout => ?_,
    retire_readReg _ (s.withMemory m bl), retire_out .., retire_input .., ⟨retire_config .., retire_prog ..,
    retire_calls ..⟩, retire_continued_advanced rfl rfl rfl⟩
  · rw [viewWord_retire]
    exact viewWord_of_memWrite hs hok hwrite
  · rw [view_retire, hview a ha, if_neg hout]

end Sys2Proof.Machine
end

section
/-! PROOFS. The system call (spec 43_syscall.md): the dispatch on the whole of v0 (R108), the end of each service (R109
to R112), and the input lines that are integers (R113). -/

namespace Sys2Proof.Machine

/-! ## The dispatch on v0 -/

/-- The name check of a register that reads as a word passes (R25). -/
theorem requireRegs_of_readReg {s : State} {r : RegName} {w : Word} (h : s.readReg r = some w) (act : Out) :
    requireRegs [r] s act = act := by
  simp [requireRegs, State.hasReg, h]

/-- The signed reading tells words apart (R14). -/
theorem sint32_inj {a b : Word} : sint32 a = sint32 b ↔ a = b := BitVec.toInt_inj

section
variable {s : State}

/-- R108: comparing the signed reading of v0 is comparing the whole word. -/
theorem exec_syscall {w : Word} (hv : s.readReg regV0 = some w) :
    exec .syscall s =
      if w = 1 then sysPrint s else if w = 5 then sysReadInt s else if w = 10 then sysExit s
      else fail .unknownSyscall s := by
  have h1 : sint32 w = 1 ↔ w = 1 := sint32_inj (b := 1)
  have h5 : sint32 w = 5 ↔ w = 5 := sint32_inj (b := 5)
  have h10 : sint32 w = 10 ↔ w = 10 := sint32_inj (b := 10)
  simp only [exec, execSyscall, requireRegs_of_readReg hv, getReg_of_readReg hv, h1, h5, h10]

theorem exec_syscall_print (hv : s.readReg regV0 = some 1) : exec .syscall s = sysPrint s := exec_syscall hv

theorem exec_syscall_readInt (hv : s.readReg regV0 = some 5) : exec .syscall s = sysReadInt s := exec_syscall hv

theorem exec_syscall_exit (hv : s.readReg regV0 = some 10) : exec .syscall s = halt s := exec_syscall hv

/-! ## The line consumed -/

/-- In a run STATE is RUNNING once the line has come (R110). -/
theorem takeLine_status_inRun (rest : List Text) (hr : s.inRun = true) : (takeLine rest s).status = .running := by
  simp [takeLine, hr]

/-- A failure entry after the line shows no RUNNING before it: only the consumed line remains (R95, R119). -/
theorem fail_takeLine (k : ErrorKind) (rest : List Text) :
    fail k (takeLine rest s) = fail k { s with input := rest } := by
  cases hr : s.inRun with
  | true =>
    rw [fail, fail, retire_failed_inRun k ((takeLine_inRun rest s).trans hr),
      retire_failed_inRun (s := { s with input := rest }) k hr]
    rfl
  | false => simp [takeLine, hr]

variable {line : Text} {rest : List Text}

/-- R110 with an integer line: v0 is written, on the state whose line is consumed. -/
theorem exec_syscall_writesOnly {v : Int} (hv : s.readReg regV0 = some 5) (hl : s.input = line :: rest)
    (hp : intLine line = some v) :
    WritesOnly regV0 (trunc32 v) (takeLine rest s) (exec .syscall s) := by
  have hhas : (takeLine rest s).hasReg regV0 = true := Option.isSome_of_eq_some hv
  refine ⟨retire .continued ((takeLine rest s).setReg regV0 v), ?_, ?_, retire_setReg_onlyReg ..,
    retire_continued_advanced rfl rfl rfl⟩
  · simp only [exec_syscall_readInt hv, sysReadInt, hl, hp, writeResult, complete]
  · rw [retire_readReg, State.readReg_setReg_same v hhas]

/-- R110 with a line that is no integer. -/
theorem exec_syscall_badLine (hv : s.readReg regV0 = some 5) (hl : s.input = line :: rest)
    (hp : intLine line = none) :
    exec .syscall s = fail .inputFormatError (takeLine rest s) := by
  simp only [exec_syscall_readInt hv, sysReadInt, hl, hp]

/-- R110 before a line has come. -/
theorem exec_syscall_noLine (hv : s.readReg regV0 = some 5) (hl : s.input = []) :
    exec .syscall s = awaitLine s := by
  simp only [exec_syscall_readInt hv, sysReadInt, hl]

end

/-! ## The obligations on the services -/

/-- Settles O25: the one effect before Continue is the appended event. -/
theorem syscallPrint : Obligations.SyscallPrint := by
  intro s w hv ha
  have hexec : exec .syscall s = complete { s with out := s.out ++ [sint32 w] } := by
    rw [exec_syscall_print hv, sysPrint, requireRegs_of_readReg ha, getReg_of_readReg ha]
  exact ⟨_, hexec, retire_out .., fun r => retire_readReg .., retire_mem .., retire_blocks ..,
    fun a _ => view_retire .., retire_input .., ⟨retire_config .., retire_prog .., retire_calls ..⟩,
    retire_continued_advanced rfl rfl rfl⟩

/-- Settles O26: the register write on the state whose line is consumed, with Continue in a run and outside one. -/
theorem syscallReadInt : Obligations.SyscallReadInt := by
  intro s line rest v hv hl hp
  obtain ⟨t, ht, hread, ⟨hregs, hmem, hblocks, hview, hout, hinput, hlaunch⟩, hadv⟩ :=
    exec_syscall_writesOnly hv hl hp
  rw [Advanced, takeLine_inRun] at hadv
  refine ⟨t, ht, hread, hregs, hmem, hblocks, hview, hout, hinput, hlaunch, fun hr => ?_, fun hr => ?_⟩
  · rwa [if_pos hr, takeLine_status_inRun rest hr] at hadv
  · rwa [if_neg (by simp [hr]), takeLine_status_outsideRun rest hr] at hadv

/-- Settles O27: the failure entry, with the line consumed. -/
theorem syscallBadLine : Obligations.SyscallBadLine := by
  intro s line rest hv hl hp
  rw [exec_syscall_badLine hv hl hp, fail_takeLine]
  exact failsWith_fail _ _

/-- Settles O28: the wait begins in STATE RUNNING alone. -/
theorem syscallWaits : Obligations.SyscallWaits := by
  intro s hv hl
  rw [exec_syscall_noLine hv hl]
  exact ⟨fun hs => if_pos hs, fun hs => if_neg hs⟩

/-- Settles O29: Halted is the one effect. -/
theorem syscallExit : Obligations.SyscallExit := by
  intro s hv
  rw [exec_syscall_exit hv]
  rfl

/-- Settles O30: none of the three services is taken. -/
theorem syscallUnknown : Obligations.SyscallUnknown := by
  intro s w hv h1 h5 h10
  rw [exec_syscall hv, if_neg h1, if_neg h5, if_neg h10]
  exact ⟨failsWith_fail _ s, rfl, rfl⟩

/-! ## The input line -/

/-- A character that is no sign and no digit stands in no immediate token (R76). -/
theorem not_mem_of_parseImm {t : Text} {v : Int} {c : Char} (hplus : c ≠ '+') (hminus : c ≠ '-')
    (hdigit : ¬ (48 ≤ c.toNat ∧ c.toNat ≤ 57)) (h : parseImm t = some v) : c ∉ t := by
  obtain ⟨sign, digits, n, hs, hn, rfl, -⟩ := parseImm_iff.1 h
  obtain ⟨-, hd, -⟩ := parseNat_iff.1 hn
  rw [List.mem_append, not_or]
  refine ⟨?_, fun hc => hdigit (hd c hc)⟩
  rcases hs with rfl | rfl | rfl <;> simp [hplus, hminus]

theorem ne_nil_of_parseImm {t : Text} {v : Int} (h : parseImm t = some v) : t ≠ [] := by
  rintro rfl
  cases h

/-- No character of an immediate token is a space or a tab (R76). -/
theorem isBlank_of_parseImm {t : Text} {v : Int} (h : parseImm t = some v) : ∀ c ∈ t, isBlank c = false := by
  intro c hc
  rw [← Bool.not_eq_true, isBlank_iff]
  rintro (rfl | rfl) <;> exact not_mem_of_parseImm (by decide) (by decide) (by decide) h hc

/-- A text is what is left without the blanks at its ends, between spaces and tabs. -/
theorem stripBlanks_spec (t : Text) : ∃ pre post, t = pre ++ stripBlanks t ++ post ∧
    (∀ c ∈ pre, isBlank c = true) ∧ ∀ c ∈ post, isBlank c = true := by
  obtain ⟨pre, hpre, hpreBlank⟩ := stripLeading_spec t
  obtain ⟨post, hpost, hpostBlank⟩ := stripLeading_spec (stripLeading t).reverse
  refine ⟨pre, post.reverse, ?_, hpreBlank, fun c hc => hpostBlank c (List.mem_reverse.1 hc)⟩
  have hinner : stripLeading t = stripBlanks t ++ post.reverse := by
    rw [stripBlanks, ← List.reverse_append, ← hpost, List.reverse_reverse]
  rw [List.append_assoc, ← hinner]
  exact hpre

/-- A text that begins with no blank keeps its front. -/
theorem stripLeading_append_of_noBlank {t : Text} (hne : t ≠ []) (ht : ∀ c ∈ t, isBlank c = false) (u : Text) :
    stripLeading (t ++ u) = t ++ u := by
  obtain ⟨c, t', rfl⟩ := List.exists_cons_of_ne_nil hne
  exact stripLeading_cons _ (ht c (List.mem_cons_self ..))

/-- Spaces and tabs around a text without any are stripped. -/
theorem stripBlanks_append {pre t post : Text} (hpre : ∀ c ∈ pre, isBlank c = true)
    (hpost : ∀ c ∈ post, isBlank c = true) (hne : t ≠ []) (ht : ∀ c ∈ t, isBlank c = false) :
    stripBlanks (pre ++ t ++ post) = t := by
  have hback : stripLeading t.reverse = t.reverse := by
    simpa using stripLeading_append_of_noBlank (t := t.reverse) (by simpa using hne) (by simpa using ht) []
  rw [stripBlanks, List.append_assoc, stripLeading_append _ hpre, stripLeading_append_of_noBlank hne ht,
    List.reverse_append, stripLeading_append _ (by simpa using hpost), hback, List.reverse_reverse]

/-- A terminator after a text that holds none of its characters is removed. -/
theorem stripTerminator_append {u term : Text} (hn : '\n' ∉ u) (hr : '\r' ∉ u)
    (hterm : term = [] ∨ term = ['\n'] ∨ term = ['\r', '\n']) : stripTerminator (u ++ term) = u := by
  have hn' : ∀ t, u.reverse ≠ '\n' :: t := fun t ht => hn (List.mem_reverse.1 (ht ▸ List.mem_cons_self ..))
  rcases hterm with rfl | rfl | rfl
  · rw [List.append_nil, stripTerminator]
    split
    · next ht => exact absurd ht (hn' _)
    · next ht => exact absurd ht (hn' _)
    · rfl
  · simp only [stripTerminator, List.reverse_append, List.reverse_singleton, List.singleton_append]
    split
    · next ht => exact absurd (List.cons.inj ht).2 fun hu => hr (List.mem_reverse.1 (hu ▸ List.mem_cons_self ..))
    · next ht => rw [← (List.cons.inj ht).2, List.reverse_reverse]
    · next ht => exact absurd rfl (ht _)
  · simp [stripTerminator]

/-- A line terminator's character stands in no immediate token between spaces and tabs. -/
theorem not_mem_of_blank_parseImm {pre t post : Text} {v : Int} {c : Char} (hpre : ∀ x ∈ pre, isBlank x = true)
    (hpost : ∀ x ∈ post, isBlank x = true) (h : parseImm t = some v) (hc : c = '\n' ∨ c = '\r') :
    c ∉ pre ++ t ++ post := by
  have hblank : isBlank c ≠ true := by rcases hc with rfl | rfl <;> decide
  have ht : c ∉ t := by
    rcases hc with rfl | rfl <;> exact not_mem_of_parseImm (by decide) (by decide) (by decide) h
  simp only [List.mem_append, not_or]
  exact ⟨⟨fun hm => hblank (hpre c hm), ht⟩, fun hm => hblank (hpost c hm)⟩

/-- Settles O31: the two strippings take a line apart, and put together from its parts it strips to the token. -/
theorem intLineGrammar : Obligations.IntLineGrammar := by
  intro line v
  simp only [← isBlank_iff]
  constructor
  · intro h
    obtain ⟨term, hline, hterm⟩ := stripTerminator_spec line
    obtain ⟨pre, post, hbody, hpre, hpost⟩ := stripBlanks_spec (stripTerminator line)
    exact ⟨pre, _, post, term, hbody ▸ hline, hpre, hpost, hterm, h⟩
  · rintro ⟨pre, t, post, term, rfl, hpre, hpost, hterm, h⟩
    have hn := not_mem_of_blank_parseImm hpre hpost h (.inl rfl)
    have hr := not_mem_of_blank_parseImm hpre hpost h (.inr rfl)
    rw [intLine, stripTerminator_append hn hr hterm,
      stripBlanks_append hpre hpost (ne_nil_of_parseImm h) (isBlank_of_parseImm h)]
    exact h

end Sys2Proof.Machine
end

section
/-! PROOFS. The errors (spec 60_exceptions.md): which kinds each well-formed instruction raises in a run (R115). Its
registers are REG_NAMES', so the name check passes and only what follows it can fail. -/

namespace Sys2Proof.Machine

/-! ## The kinds an outcome can raise -/

/-- A next state in FAILED has one of the listed error kinds. -/
def FailsOnlyWith (ks : List ErrorKind) (o : Out) : Prop :=
  ∀ t k, o = .next t → t.status = .failed k → k ∈ ks

section
variable {s : State} {ks : List ErrorKind} (hr : s.inRun = true)
include hr

/-- In a run STATE shows the kind of the instruction's own result, and no other (R92). -/
theorem failsOnlyWith_retire {x : Result} (hx : ∀ k, x = .failed k → k ∈ ks) :
    FailsOnlyWith ks (.next (retire x s)) := by
  rintro t k ⟨⟩ hk
  exact hx k (eq_failed_of_retire hk hr)

theorem failsOnlyWith_complete : FailsOnlyWith ks (complete s) := failsOnlyWith_retire hr nofun

theorem failsOnlyWith_halt : FailsOnlyWith ks (halt s) := failsOnlyWith_retire hr nofun

theorem failsOnlyWith_writeResult (rd : RegName) (v : Int) : FailsOnlyWith ks (writeResult rd v s) :=
  failsOnlyWith_complete (s := s.setReg rd v) hr

theorem FailsWith.failsOnlyWith {k : ErrorKind} {o : Out} (h : FailsWith k s o) (hk : k ∈ ks) :
    FailsOnlyWith ks o := by
  rw [FailsWith, if_pos hr] at h
  intro t k' ho ht
  cases h.symm.trans ho
  cases ht
  exact hk

end

/-! ## The ALU and the moves -/

/-- No arithmetic traps (R104). -/
theorem exec_alu_failsOnlyWith {s : State} {i : Instr} (hw : i.wellFormed s.config.regNames = true)
    (hl : s.regs.length = s.config.regNames.length) (hr : s.inRun = true) (hd : i.dest? ≠ none)
    (hb : i.base? = none) : FailsOnlyWith [] (exec i s) := by
  obtain ⟨rd, v, he⟩ := exec_eq_writeResult hw hl hd hb
  rw [he]
  exact failsOnlyWith_writeResult hr rd v

/-! ## Load and store -/

/-- The kinds of the engine's memory checks (R47, R55). -/
def memoryErrors : List ErrorKind := [.outOfBounds, .straddlingAccessUnsupported]

/-- The registers a well-formed instruction names are the file's (R82). -/
theorem mem_regNames_of_wellFormed {names : List RegName} {i : Instr} (hw : i.wellFormed names = true) :
    ∀ r ∈ i.regs, r ∈ names := by
  simp only [Instr.wellFormed, Bool.and_eq_true, List.all_eq_true, List.contains_iff_mem] at hw
  obtain ⟨hregs, -⟩ := hw
  exact hregs

/-- An access is of a word inside memory and inside one block, or a memory check stops it, read and write alike. -/
theorem access_inside_or_error {s : State} (hm : MemOk s) (a : Int) :
    (s.wordInside a ∧ s.wordInBlock a) ∨
    ∃ k ∈ memoryErrors, memRead s a = .error k ∧ ∀ w, memWrite s a w = .error k := by
  by_cases hi : s.wordInside a
  · by_cases hb : s.wordInBlock a
    · exact .inl ⟨hi, hb⟩
    · exact .inr ⟨_, by simp [memoryErrors], memRead_straddling hm hi hb, fun _ => memWrite_straddling hm hi hb⟩
  · exact .inr ⟨_, by simp [memoryErrors], memRead_outside hi, fun _ => memWrite_outside hi⟩

/-- R105, R106: the access is the one part of `lw` and `sw` that can fail. -/
theorem exec_access_failsOnlyWith {s : State} {r base : RegName} (hs : StateInv s) (hr : s.inRun = true)
    (hregs : ∀ x ∈ [r, base], x ∈ s.config.regNames) (off : Int) :
    FailsOnlyWith memoryErrors (exec (.lw r off base) s) ∧ FailsOnlyWith memoryErrors (exec (.sw r off base) s) := by
  have hreg : r ∈ s.config.regNames := hregs r (by simp)
  have hbase : base ∈ s.config.regNames := hregs base (by simp)
  obtain ⟨hi, hb⟩ | ⟨k, hk, hread, hwrite⟩ := access_inside_or_error hs.memOk (effAddr s base off)
  · constructor
    · obtain ⟨m, bl, he, -⟩ := exec_lw hs hreg hbase hi hb
      rw [he]
      exact failsOnlyWith_writeResult (s := s.withMemory m bl) hr _ _
    · obtain ⟨w, hw⟩ := Option.isSome_iff_exists.1 ((State.hasReg_iff hs.regsTotal r).2 hreg)
      obtain ⟨m, bl, he, -⟩ := memWrite_inside hs.memOk (le32_length w) hi hb
      rw [exec_sw hs hw hbase he]
      exact failsOnlyWith_complete (s := s.withMemory m bl) hr
  · obtain ⟨hlw, hsw⟩ := failsWith_of_access_error hs.regsTotal hreg hbase hread fun w => hwrite (le32 w)
    exact ⟨hlw.failsOnlyWith hr hk, hsw.failsOnlyWith hr hk⟩

/-! ## The system call -/

/-- The kinds of the id check and of the input line (R112, R110). -/
def syscallErrors : List ErrorKind := [.unknownSyscall, .inputFormatError]

/-- A block that was built holds the registers R10 requires (R131). -/
theorem StateInv.readReg_required {s : State} (hs : StateInv s) {r : RegName} (hr : r ∈ requiredRegNames) :
    ∃ w, s.readReg r = some w := by
  have hvalid := hs.configValid
  simp only [Config.valid, Bool.and_eq_true, List.all_eq_true, List.contains_iff_mem] at hvalid
  obtain ⟨⟨-, hnames⟩, -⟩ := hvalid
  exact Option.isSome_iff_exists.1 ((State.hasReg_iff hs.regsTotal r).2 (hnames r hr))

/-- R110: read_int waits, fails on its line, or writes v0. -/
theorem sysReadInt_failsOnlyWith {s : State} (hr : s.inRun = true) : FailsOnlyWith syscallErrors (sysReadInt s) := by
  unfold sysReadInt
  split
  · intro t k ht hk
    unfold awaitLine at ht
    split at ht
    · cases ht
      cases hk
    · cases ht
  · next line rest _ =>
    have hr' : (takeLine rest s).inRun = true := (takeLine_inRun rest s).trans hr
    split
    · exact (failsWith_fail _ _).failsOnlyWith hr' (by simp [syscallErrors])
    · exact failsOnlyWith_writeResult hr' _ _

/-- R108: v0 and a0 are registers of the block, so only the id check and read_int can fail. -/
theorem exec_syscall_failsOnlyWith {s : State} (hs : StateInv s) (hr : s.inRun = true) :
    FailsOnlyWith syscallErrors (exec .syscall s) := by
  obtain ⟨w, hv⟩ := hs.readReg_required (r := regV0) (by decide)
  obtain ⟨a, ha⟩ := hs.readReg_required (r := regA0) (by decide)
  rw [exec_syscall hv]
  split_ifs
  · rw [sysPrint, requireRegs_of_readReg ha]
    exact failsOnlyWith_complete (s := { s with out := s.out ++ [sint32 (s.getReg regA0)] }) hr
  · exact sysReadInt_failsOnlyWith hr
  · exact failsOnlyWith_halt hr
  · exact (failsWith_fail _ s).failsOnlyWith hr (by simp [syscallErrors])

/-! ## The obligation -/

/-- Settles O43: an ALU instruction is one register write, `lw` and `sw` fail in their access alone, and `syscall` in
its id check or on its line. -/
theorem errorsByInstruction : Obligations.ErrorsByInstruction := by
  intro s t i k hs hw hr he hk
  cases i with
  | li | add | addi | move | slt =>
    exact List.not_mem_nil (exec_alu_failsOnlyWith hw hs.regsTotal hr nofun rfl t k he hk)
  | lw r off base =>
    obtain ⟨hlw, -⟩ := exec_access_failsOnlyWith hs hr (mem_regNames_of_wellFormed hw) off
    simpa [memoryErrors] using hlw t k he hk
  | sw r off base =>
    obtain ⟨-, hsw⟩ := exec_access_failsOnlyWith hs hr (mem_regNames_of_wellFormed hw) off
    simpa [memoryErrors] using hsw t k he hk
  | syscall => simpa [syscallErrors] using exec_syscall_failsOnlyWith hs hr t k he hk

end Sys2Proof.Machine
end

section
/-! PROOFS. Reset and construction (spec 70_reset_and_hazards.md): the reset table (R128), ValidConfig and what
construction accepts (R131), and the invariant of every state that a constructed block reaches. -/

namespace Sys2Proof.Machine

/-! ## The reset table -/

/-- Without the Cache there are no blocks (R39). -/
theorem construct_blocks_none {c : Config} (hg : c.cache = none) (init : Memory) :
    (State.construct c init).blocks = [] := by simp [State.construct, hg]

/-- With the Cache there are NUM_BLOCKS blocks, each in its reset state (R39, R40). -/
theorem construct_blocks_some {c : Config} {g : CacheGeometry} (hg : c.cache = some g) (init : Memory) :
    (State.construct c init).blocks = List.replicate g.numBlocks (Block.invalid g.blockBytes) := by
  simp [State.construct, hg]

/-- Settles O11: construction writes the values, and each cache block is `Block.invalid`. -/
theorem resetRest : Obligations.ResetRest := by
  intro c init
  refine ⟨rfl, rfl, rfl, rfl, fun b hb => ?_⟩
  cases hg : c.cache with
  | none =>
    rw [construct_blocks_none hg] at hb
    exact absurd hb List.not_mem_nil
  | some g =>
    rw [construct_blocks_some hg] at hb
    obtain rfl := List.eq_of_mem_replicate hb
    exact ⟨rfl, rfl, rfl, fun _ hx => List.eq_of_mem_replicate hx⟩

/-! ## ValidConfig -/

/-- The model's test of a power of two against R7's wording. -/
theorem isPow2_iff_exists {n : Nat} : isPow2 n = true ↔ ∃ k, n = 2 ^ k := by
  rw [isPow2_iff]
  constructor
  · exact fun h => ⟨n.log2, h⟩
  · rintro ⟨k, rfl⟩
    rw [Nat.log2_two_pow]

/-- ValidConfig's conditions on the Cache (R131). -/
theorem CacheGeometry.valid_iff {memBytes addrBits : Nat} {g : CacheGeometry} : g.valid memBytes addrBits = true ↔
    (∃ k, g.blockBytes = 2 ^ k) ∧ 4 ≤ g.blockBytes ∧ (∃ k, g.cacheBytes = 2 ^ k) ∧
    g.blockBytes ∣ g.cacheBytes ∧ g.blockBytes ∣ memBytes ∧ g.offBits + g.idxBits ≤ addrBits := by
  simp only [CacheGeometry.valid, Bool.and_eq_true, decide_eq_true_eq, beq_iff_eq, isPow2_iff_exists,
    Nat.dvd_iff_mod_eq_zero, and_assoc]

/-- ValidConfig's parts (R131). -/
theorem Config.valid_iff {c : Config} : c.valid = true ↔
    4 ≤ c.memBytes ∧ c.memBytes ≤ 2 ^ 31 ∧ c.memBytes ≤ 2 ^ c.addrBits ∧ (∀ r ∈ requiredRegNames, r ∈ c.regNames) ∧
    ∀ g, c.cache = some g → g.valid c.memBytes c.addrBits = true := by
  simp only [Config.valid, Bool.and_eq_true, decide_eq_true_eq, List.all_eq_true, List.contains_iff_mem,
    Option.all_eq_true, and_assoc]

/-- R10: the five names, spelt as the spec does. -/
theorem requiredRegNames_subset_iff {names : List RegName} : (∀ r ∈ requiredRegNames, r ∈ names) ↔
    "v0".toList ∈ names ∧ "a0".toList ∈ names ∧ "t0".toList ∈ names ∧ "t1".toList ∈ names ∧ "sp".toList ∈ names := by
  simp [requiredRegNames, regV0, regA0]

/-- What construction accepts, and the block it answers (R131, R38, R128). -/
theorem constructChecked_next_iff {c : Config} {init : Memory} {s : State} : constructChecked c init = .next s ↔
    c.valid = true ∧ init.wf = true ∧ init.within c.memBytes = true ∧ State.construct c init = s := by
  unfold constructChecked
  split_ifs with hv hi
  · rw [Bool.and_eq_true] at hi
    simp [hv, hi]
  · rw [Bool.and_eq_true] at hi
    exact iff_of_false nofun fun ⟨_, hwf, hin, _⟩ => hi ⟨hwf, hin⟩
  · simp [hv]

/-- Settles O12: ValidConfig by its parts, and construction tests it first. -/
theorem constructionValidates : Obligations.ConstructionValidates := by
  intro c
  refine ⟨?_, fun hv init => ?_, fun hv => constructChecked_next_iff.2 ⟨hv, rfl, rfl, rfl⟩⟩
  · simp only [Config.valid_iff, CacheGeometry.valid_iff, requiredRegNames_subset_iff, and_assoc]
  · simp [constructChecked, hv]

/-! ## The invariant of a constructed block -/

/-- A block in its reset state fits every slot: it is invalid, so nothing is said of its contents (R40, R61). -/
theorem blockOk_invalid (c : Config) (g : CacheGeometry) (mem : Memory) (i : Nat) :
    BlockOk c g mem i (Block.invalid g.blockBytes) where
  dataLength := List.length_replicate
  tagWidth := Nat.two_pow_pos _
  dirtyValid := nofun
  inMemory := nofun
  clean := nofun

/-- The constructed cache arrays are in order (R39, R40). -/
theorem cacheOk_construct (c : Config) (init : Memory) : CacheOk (State.construct c init) := by
  unfold CacheOk
  cases hg : c.cache with
  | none => simp [hg, construct_blocks_none]
  | some g =>
    simp only [State.construct_config, hg, construct_blocks_some hg, List.length_replicate, true_and]
    intro i b hb
    obtain rfl := List.eq_of_mem_replicate (List.mem_of_getElem? hb)
    exact blockOk_invalid c g init i

/-- The constructed block meets the invariant when its parameters and its initial contents are accepted (R131, R38). -/
theorem stateInv_construct {c : Config} {init : Memory} (hv : c.valid = true) (hwf : init.wf = true)
    (hin : init.within c.memBytes = true) : StateInv (State.construct c init) where
  configValid := hv
  regsTotal := List.length_replicate
  memCanonical := hwf
  memWithin := hin
  cacheOk := cacheOk_construct c init
  progShort := Nat.zero_le _
  outRange := nofun
  waiting := nofun

/-- Settles O14: what construction tests is what the constructed block needs. -/
theorem constructInv : Obligations.ConstructInv := by
  intro c init s h
  obtain ⟨hv, hwf, hin, rfl⟩ := constructChecked_next_iff.1 h
  exact stateInv_construct hv hwf hin

/-- Settles O13: the default configuration is valid, and no contents are listed. -/
theorem resetInv : Obligations.ResetInv := stateInv_construct (by decide) rfl rfl

/-! ## The invariant of every reached state -/

/-- A run of `k + 1` steps is a step and a run of `k` steps. -/
theorem exists_step_of_run_succ {k : Nat} {s t : State} (h : Host.Core.run Sys2Proof.core (k + 1) s = .next t) :
    ∃ u, step s = .next u ∧ Host.Core.run Sys2Proof.core k u = .next t := by
  cases hs : Host.Core.step Sys2Proof.core s with
  | next u => exact ⟨u, hs, (run_succ hs k).symm.trans h⟩
  | fault | refused => simp [Host.Core.run, hs] at h

/-- What every step keeps holds after a run. -/
theorem run_keeps_inv : ∀ {k : Nat} {s t : State}, StateInv s → Host.Core.run Sys2Proof.core k s = .next t → StateInv t
  | 0, _, _, hs, h => by cases h; exact hs
  | _ + 1, _, _, hs, h => by
    obtain ⟨u, hu, hrun⟩ := exists_step_of_run_succ h
    exact run_keeps_inv (stepKeepsInv _ _ hs hu) hrun

/-- The host's calls and input lines are outside the invariant while no instruction waits for a line (R110). -/
theorem StateInv.withLaunch {s : State} (hs : StateInv s) (hw : s.status ≠ .waitInput) (calls : List HostCall)
    (input : List Text) : StateInv { s with calls := calls, input := input } :=
  hs.of_changes rfl rfl (hs.memOk.congr rfl rfl rfl) rfl hs.outRange hw

/-- Settles O39: a constructed block waits for nothing, so its launch inputs are free; then every step keeps it. -/
theorem reachableInv : Obligations.ReachableInv := by
  intro c init s t calls input k hc hrun
  have hs : StateInv s := constructInv c init s hc
  obtain ⟨-, -, -, rfl⟩ := constructChecked_next_iff.1 hc
  exact run_keeps_inv (hs.withLaunch nofun calls input) hrun

end Sys2Proof.Machine
end
